-- ==== Sys2Proof/Word.lean ====
section
/-! DEFINITION. The word types of the block (`00_scope.md` R5, R6): bytes, group masks and bank indices. -/

namespace Sys2Proof

/-- A byte: intensities, unit IDs, value bytes and everything on the wire (R5 `VALUE_W`, `UNIT_W`). -/
abbrev Byte := BitVec 8

/-- A group's channel bitmask (R5 `MASK_W`); bit `k` is channel `k` of the bank. -/
abbrev Mask := BitVec 16

/-- A bank index as the bank byte carries it (R5 `BANK_FIELD_W`, R64). -/
abbrev BankIx := BitVec 6

end Sys2Proof
end

