-- ==== Sys2Proof/Config.lean ====
section
/-! DEFINITION. The parameters of `00_scope.md` R5: the fixed ones by value, the OPEN ones and the free
values as constants without a body. -/

namespace Sys2Proof.Config

/-- `BANK_SIZE` (R5, fixed): channels of one bank. -/
abbrev bankSize : Nat := 16

/-- `CMD_BUF_BYTES` (R5, R128, fixed): the structural bound of the per-pass command buffer. -/
abbrev cmdBufBytes : Nat := 8192

/-- `MAX_BANKS` (R5, derived from R64): banks of one pass. -/
abbrev maxBanks : Nat := 64

/-- `LEGACY_CPP` (R5, R93, fixed): channels of a pass in Legacy addressing. -/
abbrev legacyCpp : Nat := 16

/-- `UNIT_MAX` (R5, fixed): the largest legal unit ID. -/
abbrev unitMax : Nat := 254

/-- `LAST_RESET` (R5, R13, fixed): the sentinel every `LAST` entry holds after reset and `INIT`. -/
abbrev lastReset : Byte := 0xFF

/-- `MAX_CHANNELS` (R5, OPEN): the depth of `LAST`. -/
opaque maxChannels : Nat

/-- The least `w` with `2^w > n`, 0 for `n = 0` (R5; `leastWidth_le` says so). -/
def leastWidth (n : Nat) : Nat := if n = 0 then 0 else Nat.log2 n + 1

/-- How far `CH_W` exceeds the least width that satisfies R5's `2^CH_W > MAX_CHANNELS` (OPEN). -/
opaque widthSlack : Nat

/-- `CH_W` (R5, OPEN): every width with `2^CH_W > MAX_CHANNELS`, and no other, is reached by some `widthSlack`; for
`MAX_CHANNELS = 0` that is every width from 0 up. DESIGN CHOICE, safe: the width is this constant without a known
value (log 6). -/
def chW : Nat := leastWidth maxChannels + widthSlack

/-- `WIRE_VALUE` (R5, R68, OPEN) as a table of bytes; an entry the table lacks is the identity's. -/
opaque wireTable : List Byte

/-- `SETTLE_DELAY` (R5, R175, OPEN). -/
opaque settleDelay : Nat

/-- Free value: `TOTAL` after an `INIT` that raises `ADDR_RANGE` is unspecified (R203, U7; log 10).
The argument is the model's counter of free values. -/
opaque freeTotal : Nat → Nat

/-- Free value: the byte `SRC` gives at an address the host's buffer does not hold (R207; log 11).
The first argument is the model's counter of free values, the second the address. -/
opaque freeSrcByte : Nat → Nat → Byte

end Sys2Proof.Config
end

