-- ==== Sys2Proof/Syntax.lean ====
section
/-! DEFINITION. The instructions: one constructor for each of the nineteen rows of `opcode_table.json`
(`30_encoding.md` R63, R65, R67, R80). -/

namespace Sys2Proof

/-- The fifteen wire commands and the four host operations. `unit` is the unit byte, `val` the value byte
as it stands on the wire (already through `WIRE_VALUE`, R140), `lsb` and `msb` the mask bytes (R69),
`bank` the bank field (R64). The operands of a host operation are input levels, not fields (R80). -/
inductive Instr where
  /-- `ONL0 unit, lsb` (R141) -/
  | onl0 (unit lsb : Byte)
  /-- `ONM0 unit, msb` (R142) -/
  | onm0 (unit msb : Byte)
  /-- `ONLM0 unit, lsb, msb` (R143) -/
  | onlm0 (unit lsb msb : Byte)
  /-- `SETL0 unit, val, lsb` (R144) -/
  | setl0 (unit val lsb : Byte)
  /-- `SETM0 unit, val, msb` (R145) -/
  | setm0 (unit val msb : Byte)
  /-- `SETLM0 unit, val, lsb, msb` (R146) -/
  | setlm0 (unit val lsb msb : Byte)
  /-- `OFFB0 unit` (R147) -/
  | offb0 (unit : Byte)
  /-- `ONLMN unit, bank, lsb, msb` (R148) -/
  | onlmn (unit : Byte) (bank : BankIx) (lsb msb : Byte)
  /-- `ONLN unit, bank, lsb` (R149) -/
  | onln (unit : Byte) (bank : BankIx) (lsb : Byte)
  /-- `ONMN unit, bank, msb` (R150) -/
  | onmn (unit : Byte) (bank : BankIx) (msb : Byte)
  /-- `OFFBN unit, bank` (R151) -/
  | offbn (unit : Byte) (bank : BankIx)
  /-- `SETLMN unit, val, bank, lsb, msb` (R152) -/
  | setlmn (unit val : Byte) (bank : BankIx) (lsb msb : Byte)
  /-- `SETLN unit, val, bank, lsb` (R153) -/
  | setln (unit val : Byte) (bank : BankIx) (lsb : Byte)
  /-- `SETMN unit, val, bank, msb` (R154) -/
  | setmn (unit val : Byte) (bank : BankIx) (msb : Byte)
  /-- `END`, the terminator (R155) -/
  | endWrite
  /-- `NOP` (R204) -/
  | nop
  /-- `INIT` (R202) -/
  | init
  /-- `FRAME` (R110) -/
  | frame
  /-- `ALLOFF` (R170) -/
  | alloff
  deriving DecidableEq, Repr

end Sys2Proof
end

