-- ==== Sys2Proof/WellFormed.lean ====
section
/-! DEFINITION. Which instructions are well formed: the constraints on the fields that R71 says the bit
patterns cannot express. -/

namespace Sys2Proof

/-- `u` is in 1 to 254 (R61, R73 (e)). -/
def unitOk (u : Byte) : Bool := u != 0 && u != 0xFF

/-- The bank field of format `BN` is in 1 to 63 (R64, R73 (c)). -/
def bankOk (b : BankIx) : Bool := b != 0

/-- A mask byte that is present is not `0x00` (R66, R73 (b)). -/
def maskOk (m : Byte) : Bool := m != 0

/-- An instruction whose every field is in the range its row of the table gives (R71). -/
def Instr.wf : Instr → Bool
  | .onl0 u l => unitOk u && maskOk l
  | .onm0 u m => unitOk u && maskOk m
  | .onlm0 u l m => unitOk u && maskOk l && maskOk m
  | .setl0 u _ l => unitOk u && maskOk l
  | .setm0 u _ m => unitOk u && maskOk m
  | .setlm0 u _ l m => unitOk u && maskOk l && maskOk m
  | .offb0 u => unitOk u
  | .onlmn u b l m => unitOk u && bankOk b && maskOk l && maskOk m
  | .onln u b l => unitOk u && bankOk b && maskOk l
  | .onmn u b m => unitOk u && bankOk b && maskOk m
  | .offbn u b => unitOk u && bankOk b
  | .setlmn u _ b l m => unitOk u && bankOk b && maskOk l && maskOk m
  | .setln u _ b l => unitOk u && bankOk b && maskOk l
  | .setmn u _ b m => unitOk u && bankOk b && maskOk m
  | .endWrite => true
  | .nop => true
  | .init => true
  | .frame => true
  | .alloff => true

/-- The fifteen wire commands, as against the four host operations (R71). -/
def Instr.isWire : Instr → Bool
  | .nop => false
  | .init => false
  | .frame => false
  | .alloff => false
  | .onl0 _ _ => true
  | .onm0 _ _ => true
  | .onlm0 _ _ _ => true
  | .setl0 _ _ _ => true
  | .setm0 _ _ _ => true
  | .setlm0 _ _ _ _ => true
  | .offb0 _ => true
  | .onlmn _ _ _ _ => true
  | .onln _ _ _ => true
  | .onmn _ _ _ => true
  | .offbn _ _ => true
  | .setlmn _ _ _ _ _ => true
  | .setln _ _ _ _ => true
  | .setmn _ _ _ _ => true
  | .endWrite => true

end Sys2Proof
end

