-- ==== Sys2Proof/Decode.lean ====
section
/-! DEFINITION. The reference decoder (`30_encoding.md` R72, R73, R74), one command at a time and one whole
write at a time, and after it the encoder (R63, R65, R67, R80). -/

namespace Sys2Proof

/-- What an instruction is encoded as: the 2-bit `op_code` of the host port (R80), or bytes of the wire (R60). -/
inductive Encoded where
  | port (code : BitVec 2)
  | wire (bytes : List Byte)
  deriving DecidableEq, Repr

/-- Why the decoder answers `invalid` (R73, R74). -/
inductive Reject where
  /-- a read past the end of the bytes, or no terminator (R74, R73 (f)) -/
  | truncated
  /-- byte 0 of a command is not `0x00` (R61, R74) -/
  | header
  /-- the terminator is followed by more bytes (R73 (e), (f)) -/
  | trailing
  /-- unit byte `0xFF` (R73 (e)) -/
  | unit
  /-- an opcode byte other than the nine of R62 (R73 (a)) -/
  | opcode
  /-- a mask byte that should be present is `0x00` (R73 (b)) -/
  | zeroMask
  /-- a bank byte whose bank field is 0 (R73 (c)) -/
  | bankZero
  /-- opcode `0x53` with `nl = nm = 1` (R73 (d)) -/
  | setWhole
  deriving DecidableEq, Repr

/-- `bb[7]`: no `lsb` byte follows (R64). -/
def bankByteNl (bb : Byte) : Bool := bb.getLsbD 7

/-- `bb[6]`: no `msb` byte follows (R64). -/
def bankByteNm (bb : Byte) : Bool := bb.getLsbD 6

/-- `bb[5:0]`: the bank index (R64). -/
def bankByteBank (bb : Byte) : BankIx := bb.extractLsb' 0 6

/-- Exactly one mask byte follows, and it is not zero (R74). -/
def oneMask (f : Byte → Instr) : List Byte → Except Reject (Instr × List Byte)
  | [] => .error .truncated
  | x :: rest => if x = 0 then .error .zeroMask else .ok (f x, rest)

/-- Both mask bytes follow, `lsb` first, and neither is zero (R66, R74). -/
def twoMasks (f : Byte → Byte → Instr) : List Byte → Except Reject (Instr × List Byte)
  | [] => .error .truncated
  | l :: rest => if l = 0 then .error .zeroMask else oneMask (f l) rest

/-- A value byte follows immediately after the opcode (R63, R64). -/
def withVal (f : Byte → List Byte → Except Reject (Instr × List Byte)) : List Byte → Except Reject (Instr × List Byte)
  | [] => .error .truncated
  | v :: rest => f v rest

/-- A bank byte follows; its two flags say which mask bytes come after it (R64, R72, R74).
`whole` is what both flags set stand for. -/
def withBank (both : BankIx → Byte → Byte → Instr) (lsbOnly msbOnly : BankIx → Byte → Instr)
    (whole : BankIx → Except Reject Instr) : List Byte → Except Reject (Instr × List Byte)
  | [] => .error .truncated
  | bb :: rest =>
    if bankByteBank bb = 0 then .error .bankZero
    else match bankByteNl bb, bankByteNm bb with
      | false, false => twoMasks (both (bankByteBank bb)) rest
      | false, true => oneMask (lsbOnly (bankByteBank bb)) rest
      | true, false => oneMask (msbOnly (bankByteBank bb)) rest
      | true, true =>
        match whole (bankByteBank bb) with
        | .ok i => .ok (i, rest)
        | .error e => .error e

/-- The command after the header `00 u`, by its opcode byte (R62, R71, R72). -/
def decodeOp (u op : Byte) (q : List Byte) : Except Reject (Instr × List Byte) :=
  if op = 0x41 then .ok (.offb0 u, q)
  else if op = 0x11 then oneMask (.onl0 u) q
  else if op = 0x21 then oneMask (.onm0 u) q
  else if op = 0x31 then twoMasks (.onlm0 u) q
  else if op = 0x13 then withVal (fun v => oneMask (.setl0 u v)) q
  else if op = 0x23 then withVal (fun v => oneMask (.setm0 u v)) q
  else if op = 0x33 then withVal (fun v => twoMasks (.setlm0 u v)) q
  else if op = 0x51 then
    withBank (.onlmn u) (.onln u) (.onmn u) (fun b => .ok (.offbn u b)) q
  else if op = 0x53 then
    withVal (fun v => withBank (.setlmn u v) (.setln u v) (.setmn u v) (fun _ => .error .setWhole)) q
  else .error .opcode

/-- The first command of a byte sequence and the bytes after it (R74). The terminator is a command only at
the very end (R73 (e)). -/
def decodeWire : List Byte → Except Reject (Instr × List Byte)
  | [] => .error .truncated
  | [_] => .error .truncated
  | h :: u :: q =>
    if h ≠ 0 then .error .header
    else if u = 0 then
      match q with
      | [] => .ok (.endWrite, [])
      | _ :: _ => .error .trailing
    else if u = 0xFF then .error .unit
    else match q with
      | [] => .error .truncated
      | op :: rest => decodeOp u op rest

/-- The host operation of an `op_code` (R80); all four codes are used. -/
def decodePort (code : BitVec 2) : Instr :=
  if code = 0 then .nop else if code = 1 then .init else if code = 2 then .frame else .alloff

/-- One instruction from where it is encoded, and the wire bytes after it. -/
def decode : Encoded → Except Reject (Instr × List Byte)
  | .port code => .ok (decodePort code, [])
  | .wire bytes => decodeWire bytes

/-- The mask of which `lsb` and `msb` are the bytes; an absent byte is passed as `0x00` (R69). -/
def joinMask (lsb msb : Byte) : Mask := (msb.setWidth 16 <<< 8) ||| lsb.setWidth 16

/-- A record of the reference decoder (R74): `ON(u, bank, m)`, `SET(u, bank, val, m)`, `OFF(u, bank)`, `END`. -/
inductive Record where
  | on (unit : Byte) (bank : BankIx) (m : Mask)
  | set (unit : Byte) (bank : BankIx) (val : Byte) (m : Mask)
  | off (unit : Byte) (bank : BankIx)
  | fin
  deriving DecidableEq, Repr

/-- The record a wire command stands for (R74, R75); a host operation has none. -/
def Instr.record : Instr → Option Record
  | .onl0 u l => some (.on u 0 (joinMask l 0))
  | .onm0 u m => some (.on u 0 (joinMask 0 m))
  | .onlm0 u l m => some (.on u 0 (joinMask l m))
  | .setl0 u v l => some (.set u 0 v (joinMask l 0))
  | .setm0 u v m => some (.set u 0 v (joinMask 0 m))
  | .setlm0 u v l m => some (.set u 0 v (joinMask l m))
  | .offb0 u => some (.off u 0)
  | .onlmn u b l m => some (.on u b (joinMask l m))
  | .onln u b l => some (.on u b (joinMask l 0))
  | .onmn u b m => some (.on u b (joinMask 0 m))
  | .offbn u b => some (.off u b)
  | .setlmn u v b l m => some (.set u b v (joinMask l m))
  | .setln u v b l => some (.set u b v (joinMask l 0))
  | .setmn u v b m => some (.set u b v (joinMask 0 m))
  | .endWrite => some .fin
  | .nop => none
  | .init => none
  | .frame => none
  | .alloff => none

/-- The loop of R74's `Decode`; the fuel bounds the number of commands. -/
def decodeWriteLoop : Nat → List Byte → Except Reject (List Record)
  | 0, _ => .error .truncated
  | n + 1, bytes =>
    match decodeWire bytes with
    | .error e => .error e
    | .ok (i, rest) =>
      if i = .endWrite then .ok [.fin]
      else match decodeWriteLoop n rest with
        | .error e => .error e
        | .ok rs => .ok (i.record.toList ++ rs)

/-- R74's `Decode` of the bytes of one `TxWrite`: its records, or why it is invalid. Every command takes at
least one byte, so the length is fuel enough. -/
def decodeWrite (bytes : List Byte) : Except Reject (List Record) :=
  decodeWriteLoop bytes.length bytes

/-! The encoder. -/

/-- The bank byte: the flags `nl` and `nm` above the bank index (R64). -/
def bankByte (nl nm : Bool) (bank : BankIx) : Byte :=
  (if nl then 0x80 else 0) ||| (if nm then 0x40 else 0) ||| bank.setWidth 8

/-- The bytes of a wire command in wire order (R63, R65, R67); a host operation has none. -/
def encodeBytes : Instr → List Byte
  | .onl0 u l => [0x00, u, 0x11, l]
  | .onm0 u m => [0x00, u, 0x21, m]
  | .onlm0 u l m => [0x00, u, 0x31, l, m]
  | .setl0 u v l => [0x00, u, 0x13, v, l]
  | .setm0 u v m => [0x00, u, 0x23, v, m]
  | .setlm0 u v l m => [0x00, u, 0x33, v, l, m]
  | .offb0 u => [0x00, u, 0x41]
  | .onlmn u b l m => [0x00, u, 0x51, bankByte false false b, l, m]
  | .onln u b l => [0x00, u, 0x51, bankByte false true b, l]
  | .onmn u b m => [0x00, u, 0x51, bankByte true false b, m]
  | .offbn u b => [0x00, u, 0x51, bankByte true true b]
  | .setlmn u v b l m => [0x00, u, 0x53, v, bankByte false false b, l, m]
  | .setln u v b l => [0x00, u, 0x53, v, bankByte false true b, l]
  | .setmn u v b m => [0x00, u, 0x53, v, bankByte true false b, m]
  | .endWrite => [0x00, 0x00]
  | .nop => []
  | .init => []
  | .frame => []
  | .alloff => []

/-- The encoding of an instruction: the `op_code` of a host operation (R80), the bytes of a wire command. -/
def encode (i : Instr) : Encoded :=
  match i with
  | .nop => .port 0
  | .init => .port 1
  | .frame => .port 2
  | .alloff => .port 3
  | .onl0 _ _ => .wire (encodeBytes i)
  | .onm0 _ _ => .wire (encodeBytes i)
  | .onlm0 _ _ _ => .wire (encodeBytes i)
  | .setl0 _ _ _ => .wire (encodeBytes i)
  | .setm0 _ _ _ => .wire (encodeBytes i)
  | .setlm0 _ _ _ _ => .wire (encodeBytes i)
  | .offb0 _ => .wire (encodeBytes i)
  | .onlmn _ _ _ _ => .wire (encodeBytes i)
  | .onln _ _ _ => .wire (encodeBytes i)
  | .onmn _ _ _ => .wire (encodeBytes i)
  | .offbn _ _ => .wire (encodeBytes i)
  | .setlmn _ _ _ _ _ => .wire (encodeBytes i)
  | .setln _ _ _ _ => .wire (encodeBytes i)
  | .setmn _ _ _ _ => .wire (encodeBytes i)
  | .endWrite => .wire (encodeBytes i)

/-! The opcode table's words. -/

/-- The `n` bytes of a table word in wire order: the table numbers a row as one number whose leftmost byte,
the first on the wire, is the most significant (R71, log 3). -/
def tableBytes : Nat → Nat → List Byte
  | 0, _ => []
  | n + 1, w => BitVec.ofNat 8 (w / 256 ^ n) :: tableBytes n w

/-- Where a table word of `nbits` bits is encoded: a row of at most one byte is a host `op_code` (format
`HOSTOP`, 2 bits, R71, R80), a longer row is wire bytes. -/
def tableEncoded (nbits w : Nat) : Option Encoded :=
  if nbits ≤ 8 then (if w < 4 then some (.port (BitVec.ofNat 2 w)) else none)
  else some (.wire (tableBytes ((nbits + 7) / 8) w))

/-- The instruction the decoder reads from a word of the opcode table. -/
def decodeTableWord (nbits w : Nat) : Option Instr :=
  match tableEncoded nbits w with
  | none => none
  | some e =>
    match decode e with
    | .ok (i, _) => some i
    | .error _ => none

end Sys2Proof
end

