-- ==== Sys2Proof/Machine/State.lean ====
section
/-! DEFINITION. The state of the block (`10_state.md`), the parameters it is built with, what the host can do
to it, its output events, and the reasons the model stops. -/

namespace Sys2Proof.Machine

/-- The history memory's cells (`20_memory.md` R40): addresses strictly rising, no entry equal to `0xFF`,
which is what an unlisted address reads as because reset and `INIT` fill `LAST` with it (R13, R34). -/
abbrev Memory := List Host.Cell

/-- A sparse table in canonical form: indices strictly rising, no entry equal to the default. -/
abbrev Sparse.wf {α : Type} (dflt : α) (m : List (Nat × α)) : Prop :=
  m.Pairwise (fun x y => x.1 < y.1) ∧ ∀ c ∈ m, c.2 ≠ dflt

/-- The canonical form of the history memory. -/
abbrev Memory.wf (m : Memory) : Prop := Sparse.wf Config.lastReset m

/-- `dtype` (R12): codes 0 to 7 in this order. AC, RGB, CCR and CCB are not distinguished by any rule. -/
inductive DeviceType where
  | ac | rgb | ccr | ccb | pixie4 | pixie8 | pixie16 | malformed
  deriving DecidableEq, Repr

/-- `amode` (R12): codes 0, 1, 2; code 3 reads as Normal. -/
inductive AddrMode where
  | normal | legacy | split
  deriving DecidableEq, Repr

/-- One Controller Descriptor (R12). -/
structure Descriptor where
  dtype : DeviceType
  unitId : Byte
  chanCount : Nat
  amode : AddrMode
  deriving DecidableEq, Repr

/-- What a staging entry holds that nothing has staged: the all-zero word, a descriptor of no channels.
DESIGN CHOICE, unsafe: the spec gives the staging table no reset value (log 8). -/
def Descriptor.zero : Descriptor :=
  { dtype := .ac, unitId := 0, chanCount := 0, amode := .normal }

/-- The OPEN parameters of R5, which the spec has a model take as arguments; no step changes them (log 6).
`wire` is `WIRE_VALUE` as a table, the identity where the table has no entry. -/
structure Params where
  maxChannels : Nat
  chW : Nat
  wire : List Byte
  settleDelay : Nat
  deriving DecidableEq, Repr

/-- R5's constraint on the widths, `2^CH_W > MAX_CHANNELS`. -/
abbrev Params.wf (p : Params) : Prop := p.maxChannels < 2 ^ p.chW

/-- The input levels sampled when an operation is accepted (R27 to R32), with the host's buffer `SRC` (R41). -/
structure Ports where
  en : Bool
  tpPresent : Bool
  ok : Bool
  txEmpty : Bool
  opStart : Nat
  opSrcLen : Nat
  cfgCount : Nat
  src : List Byte
  deriving DecidableEq, Repr

/-- All input levels low, zero and empty. DESIGN CHOICE for the levels before the first operation (log 9). -/
def Ports.low : Ports :=
  { en := false, tpPresent := false, ok := false, txEmpty := false
    opStart := 0, opSrcLen := 0, cfgCount := 0, src := [] }

/-- What the host does to the block between transitions (R27, R32, R53, R200; log 1). -/
inductive Stimulus where
  /-- `op_valid` with `op_code`, and the input levels at that edge (R27, R80) -/
  | op (code : BitVec 2) (ports : Ports)
  /-- `cfg_we` with `cfg_idx` and `cfg_wdata` (R32, R81) -/
  | stage (idx : Nat) (wdata : Nat)
  /-- `rst` (R200) -/
  | rst
  /-- bytes of wire commands presented to the Command Byte Generator (R140; log 1) -/
  | wire (bytes : List Byte)
  deriving DecidableEq, Repr

/-- The completion status of R186. -/
inductive Status where
  | done | skipNotReady | skipBackpressure | faulted
  deriving DecidableEq, Repr

/-- The 2-bit code of a status (R186). -/
def Status.code : Status → BitVec 2
  | .done => 0
  | .skipNotReady => 1
  | .skipBackpressure => 2
  | .faulted => 3

/-- The reason of a `Log` event; there is one (R33, R195). -/
inductive LogReason where
  | backpressure
  deriving DecidableEq, Repr

/-- The output events a trace is made of (R7, R33, R35). -/
inductive Event where
  | txWrite (bytes : List Byte)
  | log (reason : LogReason)
  | heartbeat
  | settle
  | done (status : Status)
  deriving DecidableEq, Repr

/-- The fault causes of R183; code 0 is no fault, 5 to 7 are never written. -/
inductive Cause where
  | capacity | bankRange | unitRange | addrRange
  deriving DecidableEq, Repr

/-- The 3-bit code of a cause (R183). -/
def Cause.code : Cause → BitVec 3
  | .capacity => 1
  | .bankRange => 2
  | .unitRange => 3
  | .addrRange => 4

/-- The whole state. `cfg` to `occ` are the persistent state of R10 (a), with `N_CTRL` the length of `cfg`;
`cmdbuf` is `CMDBUF[0 .. WRIDX-1]` (R21); `busy`, `settleTimer`, `staged` and `ports` are the interface's
(R27, R32, R192). `par`, `pending`, `trace` and `freeCount` are the model's own (log 1, 6, 10, 17). -/
structure State where
  par : Params
  cfg : List Descriptor
  last : Memory
  force : Bool
  faultReg : BitVec 3
  total : Nat
  occ : BitVec 255
  cmdbuf : List Byte
  busy : Bool
  settleTimer : Nat
  staged : List (Nat × Descriptor)
  ports : Ports
  pending : List Stimulus
  trace : List Event
  freeCount : Nat
  deriving DecidableEq, Repr

/-- The parameters of the block as built: nothing is known of them but R5's constraint. -/
def Params.built : Params :=
  { maxChannels := Config.maxChannels, chW := Config.chW, wire := Config.wireTable
    settleDelay := Config.settleDelay }

/-- The machine right after reset (R34, R200). The values the spec leaves open are the model's: `cmdbuf`
(log 5), `staged` (log 8), `ports` (log 9), `freeCount` (log 10). -/
def State.reset : State :=
  { par := Params.built
    cfg := []
    last := []
    force := true
    faultReg := 0
    total := 0
    occ := 1
    cmdbuf := []
    busy := false
    settleTimer := 0
    staged := []
    ports := Ports.low
    pending := []
    trace := []
    freeCount := 0 }

/-- Why a step ends in a fault of the model (the spec's own faults are next states, R184). -/
inductive Fault where
  /-- Raised by `FRAME` where its layout holds more channels than `TOTAL`, so that it would read `SRC` and
  write `LAST` outside the range R51 checked (R130). No run from reset reaches such a state. Safe. -/
  | absentAddress
  deriving DecidableEq, Repr

/-- Why a step refuses. -/
inductive Refusal where
  /-- An instruction without a meaning in the model, by its mnemonic. No arm of `exec` raises it. Safe. -/
  | notModelled (mnemonic : String)
  /-- The bytes presented are no command: R74's `Decode` answers `invalid` (R73, U18). Raised by `step`. Safe. -/
  | invalidEncoding (why : Sys2Proof.Reject)
  /-- A wire command whose unit is outside 1 to 254: outside the generator's domain (R157, U2). Safe. -/
  | unitOutOfRange
  /-- A command of format `BN` whose bank is 0: outside 1 to 63 (R73 (c), U2). Safe. -/
  | bankOutOfRange
  /-- A wire command with a mask byte that should be present and is zero (R156, R73 (b), U1). Safe. -/
  | zeroMask
  deriving DecidableEq, Repr

end Sys2Proof.Machine
end

