-- ==== Sys2Proof/Machine/Operands.lean ====
section
/-! DEFINITION. Operand forms: mask bytes (R69), the value byte (R68), the generic forms of R75, the staging
word of R81, the levels of R28, and the ranges outside which the generator has no meaning (R156, R157). -/

namespace Sys2Proof.Machine

/-- `lsb = m[7:0]` (R69). -/
def maskLsb (m : Mask) : Byte := m.extractLsb' 0 8

/-- `msb = m[15:8]` (R69). -/
def maskMsb (m : Mask) : Byte := m.extractLsb' 8 8

/-- `WIRE_VALUE` (R68): the byte put on the wire for a raw value, the identity where the table has no entry. -/
def wireValue (p : Params) (v : Byte) : Byte := p.wire.getD v.toNat v

/-- The generic form `ON unit, bank, m` (R75). -/
def onForm (unit : Byte) (bank : BankIx) (m : Mask) : Instr :=
  if bank = 0 then
    if maskMsb m = 0 then .onl0 unit (maskLsb m)
    else if maskLsb m = 0 then .onm0 unit (maskMsb m)
    else .onlm0 unit (maskLsb m) (maskMsb m)
  else
    if maskMsb m = 0 then .onln unit bank (maskLsb m)
    else if maskLsb m = 0 then .onmn unit bank (maskMsb m)
    else .onlmn unit bank (maskLsb m) (maskMsb m)

/-- The generic form `SET unit, bank, val, m` (R75). -/
def setForm (unit : Byte) (bank : BankIx) (val : Byte) (m : Mask) : Instr :=
  if bank = 0 then
    if maskMsb m = 0 then .setl0 unit val (maskLsb m)
    else if maskLsb m = 0 then .setm0 unit val (maskMsb m)
    else .setlm0 unit val (maskLsb m) (maskMsb m)
  else
    if maskMsb m = 0 then .setln unit val bank (maskLsb m)
    else if maskLsb m = 0 then .setmn unit val bank (maskMsb m)
    else .setlmn unit val bank (maskLsb m) (maskMsb m)

/-- The generic form `OFF unit, bank` (R75). -/
def offForm (unit : Byte) (bank : BankIx) : Instr :=
  if bank = 0 then .offb0 unit else .offbn unit bank

/-- `dtype` from its 3-bit code (R12). -/
def dtypeOfCode (c : BitVec 3) : DeviceType :=
  if c = 0 then .ac else if c = 1 then .rgb else if c = 2 then .ccr else if c = 3 then .ccb
  else if c = 4 then .pixie4 else if c = 5 then .pixie8 else if c = 6 then .pixie16 else .malformed

/-- The 3-bit code of a `dtype` (R12). -/
def dtypeCode : DeviceType → BitVec 3
  | .ac => 0
  | .rgb => 1
  | .ccr => 2
  | .ccb => 3
  | .pixie4 => 4
  | .pixie8 => 5
  | .pixie16 => 6
  | .malformed => 7

/-- `amode` from its 2-bit code; 3 reads as Normal (R12, U11). -/
def amodeOfCode (c : BitVec 2) : AddrMode :=
  if c = 1 then .legacy else if c = 2 then .split else .normal

/-- The 2-bit code of an `amode` (R12). -/
def amodeCode : AddrMode → BitVec 2
  | .normal => 0
  | .legacy => 1
  | .split => 2

/-- The descriptor of a staging word `{dtype[2:0], amode[1:0], unit_id[7:0], chan_count[CH_W-1:0]}` (R27, R81). -/
def unpackDescriptor (chW wdata : Nat) : Descriptor :=
  { dtype := dtypeOfCode (BitVec.ofNat 3 (wdata / 2 ^ (chW + 10)))
    amode := amodeOfCode (BitVec.ofNat 2 (wdata / 2 ^ (chW + 8)))
    unitId := BitVec.ofNat 8 (wdata / 2 ^ chW)
    chanCount := wdata % 2 ^ chW }

/-- The staging word of a descriptor (R81). -/
def packDescriptor (chW : Nat) (d : Descriptor) : Nat :=
  (dtypeCode d.dtype).toNat * 2 ^ (chW + 10) + (amodeCode d.amode).toNat * 2 ^ (chW + 8)
    + d.unitId.toNat * 2 ^ chW + d.chanCount

/-- The output is enabled, the transport attached, the output operational (R28, R126). -/
def Ports.ready (p : Ports) : Bool := p.en && p.tpPresent && p.ok

/-- Why a wire command with this unit byte is outside the generator's domain, if it is (R157, U2; log 12). -/
def unitRefusal (u : Byte) : Option Refusal :=
  if u = 0 ∨ u = 0xFF then some .unitOutOfRange else none

/-- Why a command of format `BN` with this bank is outside the domain, if it is (R64, R73 (c), U2; log 12). -/
def bankRefusal (b : BankIx) : Option Refusal :=
  if b = 0 then some .bankOutOfRange else none

/-- Why a command with this mask byte present is outside the domain, if it is (R66, R156, U1; log 12). -/
def maskRefusal (m : Byte) : Option Refusal :=
  if m = 0 then some .zeroMask else none

end Sys2Proof.Machine
end

