-- ==== Sys2Proof/Machine/Flags.lean ====
section
/-! DEFINITION. The grouping store and the flags of one pass (`10_state.md` R18, R19, R20, R24;
`41_frame_encoder.md` R113, R114, R115). -/

namespace Sys2Proof.Machine

/-- One entry of a bank's grouping: a value and the mask of the bank's channels that hold it (R18). -/
structure Group where
  val : Byte
  mask : Mask
  deriving DecidableEq, Repr

/-- `GRP[b]`, `COLOR[b]` and `CHG[b]` of one bank (R18, R19, R20); `NGRP[b]` is the length of `groups`. -/
structure Bank where
  groups : List Group
  color : Bool
  chg : Bool
  deriving DecidableEq, Repr

/-- The flags and the grouping of a bank at the start of a pass (R116): `CHG[b] <- FORCE` (R20). -/
def Bank.start (force : Bool) : Bank := { groups := [], color := false, chg := force }

/-- The mask with the one bit of channel `k` of a bank. -/
def channelBit (k : Nat) : Mask := BitVec.twoPow 16 k

/-- `GroupInsert` (R113): the first entry with the value takes the channel's bit, else a new last entry does. -/
def groupInsert (v : Byte) (k : Nat) : List Group → List Group
  | [] => [{ val := v, mask := channelBit k }]
  | g :: gs =>
    if g.val = v then { g with mask := g.mask ||| channelBit k } :: gs
    else g :: groupInsert v k gs

/-- A value strictly between fully off and fully on (R114). -/
def isMid (v : Byte) : Bool := v != 0x00 && v != 0xFF

/-- What channel `k` of a bank, with value `v` and history `old`, does to the bank (R113, R114, R115). -/
def Bank.channel (v old : Byte) (k : Nat) (b : Bank) : Bank :=
  { groups := groupInsert v k b.groups
    color := b.color || isMid v
    chg := b.chg || v != old }

/-- `PASS_CHG`, the OR of the pass's `CHG[b]`, 0 for a pass of no bank (R20, R124). -/
def passChanged (banks : List Bank) : Bool := banks.any (·.chg)

end Sys2Proof.Machine
end

