-- ==== Sys2Proof/Machine/Generator.lean ====
section
/-! DEFINITION. The Command Byte Generator (`42_command_generator.md` R140, R158, R159): a function of its
operands alone. At `m = 0` the spec gives `Gen` no meaning (R156); the encoder never calls it so. -/

namespace Sys2Proof.Machine

/-- The opcode byte of format `B0` before the value-byte bit (R63, R158). -/
def opcodeB0 (m : Mask) : Byte :=
  if maskLsb m ≠ 0 ∧ maskMsb m ≠ 0 then 0x31
  else if maskLsb m = 0 then 0x21
  else 0x11

/-- The value-byte requirement ORs `0x02` into an opcode (R62, R63, R64). -/
def withVb (vb : Bool) (op : Byte) : Byte := if vb then op ||| 0x02 else op

/-- The mask bytes that are not zero, `lsb` first (R66). -/
def maskBytes (m : Mask) : List Byte :=
  (if maskLsb m ≠ 0 then [maskLsb m] else []) ++ (if maskMsb m ≠ 0 then [maskMsb m] else [])

/-- The bank byte with its two absence flags (R64, R158). -/
def genBankByte (bank : BankIx) (m : Mask) : Byte :=
  bank.setWidth 8 ||| (if maskMsb m = 0 then 0x40 else 0) ||| (if maskLsb m = 0 then 0x80 else 0)

/-- `Gen(unit, bank, vb, val, m)` (R158). -/
def gen (unit : Byte) (bank : BankIx) (vb : Bool) (val : Byte) (m : Mask) : List Byte :=
  [0x00, unit] ++
  (if bank = 0 then
    [withVb vb (opcodeB0 m)] ++ (if vb then [val] else [])
  else
    [withVb vb 0x51] ++ (if vb then [val] else []) ++ [genBankByte bank m]) ++
  maskBytes m

/-- `GenON(unit, bank, m)` (R158). -/
def genOn (unit : Byte) (bank : BankIx) (m : Mask) : List Byte := gen unit bank false 0 m

/-- `GenSET(unit, bank, val, m)` (R158). -/
def genSet (unit : Byte) (bank : BankIx) (val : Byte) (m : Mask) : List Byte := gen unit bank true val m

/-- `GenOFF(unit, bank)` (R159). -/
def genOff (unit : Byte) (bank : BankIx) : List Byte :=
  if bank = 0 then [0x00, unit, 0x41] else [0x00, unit, 0x51, 0xC0 ||| bank.setWidth 8]

/-- The two bytes of the terminator (R67, R155). -/
def terminator : List Byte := [0x00, 0x00]

end Sys2Proof.Machine
end

