-- ==== Sys2Proof/Machine/Planner.lean ====
section
/-! DEFINITION. The Layout Planner (`40_layout_planner.md`): `PLAN`, the passes it gives, `CALC_TOTAL`, and
the configuration checks `VALIDATE` of `70_reset_and_hazards.md` R203. -/

namespace Sys2Proof.Machine

/-- The planner's outputs `(EFF, CPP, NPASS)` (R90). -/
structure Plan where
  eff : Nat
  cpp : Nat
  npass : Nat
  deriving DecidableEq, Repr

/-- `ceil(n / 16)` (R6, R101): banks of `n` channels, and passes of a Legacy controller. -/
def ceil16 (n : Nat) : Nat := (n + 15) / 16

/-- Output ports per card of a Pixie type (R5 `PIXIE_PORTS`, R92); none for the other types. -/
def pixiePorts : DeviceType → Option Nat
  | .pixie4 => some 4
  | .pixie8 => some 8
  | .pixie16 => some 16
  | .ac => none
  | .rgb => none
  | .ccr => none
  | .ccb => none
  | .malformed => none

/-- `PLAN(d)`, in the selection order of R91. -/
def plan (d : Descriptor) : Plan :=
  if d.dtype = .malformed then { eff := 0, cpp := 0, npass := 0 }
  else if d.chanCount = 0 then { eff := 0, cpp := 0, npass := 0 }
  else match pixiePorts d.dtype with
    | some p => { eff := d.chanCount * p, cpp := d.chanCount, npass := p }
    | none =>
      match d.amode with
      | .legacy => { eff := d.chanCount, cpp := Config.legacyCpp, npass := ceil16 d.chanCount }
      | .split => { eff := d.chanCount, cpp := d.chanCount / 2, npass := 2 }
      | .normal => { eff := d.chanCount, cpp := d.chanCount, npass := 1 }

/-- One pass: its unit byte, the global index of its first channel, its number of channels (R22, R112). -/
structure PassSpec where
  unit : Byte
  g0 : Nat
  len : Nat
  deriving DecidableEq, Repr

/-- `NB`, the banks of a pass (R102). -/
def PassSpec.nb (p : PassSpec) : Nat := ceil16 p.len

/-- Pass `p` of a controller whose first channel is `base` (R97, R102, R110, R112). -/
def passSpec (d : Descriptor) (base p : Nat) : PassSpec :=
  { unit := d.unitId + BitVec.ofNat 8 p
    g0 := base + p * (plan d).cpp
    len := min (plan d).cpp ((plan d).eff - p * (plan d).cpp) }

/-- The passes of a controller in ascending `PI` (R112). -/
def passesOf (d : Descriptor) (base : Nat) : List PassSpec :=
  (List.range (plan d).npass).map (passSpec d base)

/-- The passes of a table in the order of the sequencer: controllers in ascending index, `BASE` advancing by
`EFF` (R48, R110, R112). -/
def layout : Nat → List Descriptor → List PassSpec
  | _, [] => []
  | base, d :: ds => passesOf d base ++ layout (base + (plan d).eff) ds

/-- The sum of the effective channel counts of a table (R16, R100). -/
def effTotal : List Descriptor → Nat
  | [] => 0
  | d :: ds => (plan d).eff + effTotal ds

/-- `OCC[u] <- 1` where `u` has an entry (R99). -/
def markUnit (occ : BitVec 255) (u : Nat) : BitVec 255 :=
  if u ≤ Config.unitMax then occ ||| BitVec.twoPow 255 u else occ

/-- Marks every unit ID a controller consumes (R97, R99). -/
def markController (occ : BitVec 255) (d : Descriptor) : BitVec 255 :=
  (List.range (plan d).npass).foldl (fun o p => markUnit o (d.unitId.toNat + p)) occ

/-- The occupancy map `CALC_TOTAL` rebuilds: cleared, entry 0 marked, then every controller (R100). -/
def occupancy (cfg : List Descriptor) : BitVec 255 := cfg.foldl markController 1

/-- The first check of R203 that a controller fails, `UNIT_RANGE` before `BANK_RANGE` (R97, R98, R188). -/
def controllerFault (d : Descriptor) : Option Cause :=
  if 0 < (plan d).npass then
    if d.unitId = 0 ∨ Config.unitMax < d.unitId.toNat + (plan d).npass - 1 then some .unitRange
    else if Config.bankSize * Config.maxBanks < (plan d).cpp then some .bankRange
    else none
  else none

/-- `VALIDATE` (R203): the controllers in table order, then the total against `MAX_CHANNELS`. -/
def validate (maxChannels : Nat) (cfg : List Descriptor) : Option Cause :=
  match cfg.findSome? controllerFault with
  | some c => some c
  | none => if maxChannels < effTotal cfg then some .addrRange else none

end Sys2Proof.Machine
end

