-- ==== Sys2Proof/Machine/Ops.lean ====
section
/-! DEFINITION. The named operations over the spaces of `20_memory.md` and over the trace, and the fault entry
of `60_exceptions.md` R184, once for every operation. -/

namespace Sys2Proof.Machine

/-! Sparse tables. -/

/-- Reads a sparse table: an unlisted index reads as the default. -/
def Sparse.get {α : Type} (dflt : α) : List (Nat × α) → Nat → α
  | [], _ => dflt
  | c :: m, a => if c.1 = a then c.2 else Sparse.get dflt m a

/-- Writes a sparse table and keeps its canonical form: writing the default removes the entry. -/
def Sparse.put {α : Type} [DecidableEq α] (dflt : α) : List (Nat × α) → Nat → α → List (Nat × α)
  | [], a, v => if v = dflt then [] else [(a, v)]
  | c :: m, a, v =>
    if a < c.1 then (if v = dflt then c :: m else (a, v) :: c :: m)
    else if a = c.1 then (if v = dflt then m else (a, v) :: m)
    else c :: Sparse.put dflt m a v

/-- `MemRead(LAST, a, 1)` (R7, R42). -/
def Memory.read (m : Memory) (a : Nat) : Byte := Sparse.get Config.lastReset m a

/-- `MemWrite(LAST, a, 1, v)` (R7, R42). -/
def Memory.write (m : Memory) (a : Nat) (v : Byte) : Memory := Sparse.put Config.lastReset m a v

/-- `MemRead(SRC, a, 1)` (R7, R31, R41): the host's byte; where the host's buffer holds none, a free value
(log 11). -/
def srcRead (s : State) (a : Nat) : Byte :=
  (s.ports.src[a]?).getD (Config.freeSrcByte s.freeCount a)

/-- The staged descriptor at an index (R32). -/
def stagedAt (s : State) (c : Nat) : Descriptor := Sparse.get Descriptor.zero s.staged c

/-! Views of the state the pins show. -/

/-- `N_CTRL` (R11; log 22). -/
def State.nCtrl (s : State) : Nat := s.cfg.length

/-- `WRIDX` (R21). -/
def State.wridx (s : State) : Nat := s.cmdbuf.length

/-- The output `fault` (R27, R195). -/
def State.faultPin (s : State) : BitVec 3 := s.faultReg

/-- The output `total` (R27, R195). -/
def State.totalPin (s : State) : Nat := s.total

/-- The output `occ_bit` for an `occ_idx` (R27, R195). There is no entry 255 (R17); the view reads 0 there (log 24). -/
def State.occBit (s : State) (idx : Byte) : Bool := s.occ.getLsbD idx.toNat

/-! Output events and the end of an operation. -/

/-- Raises one output event (R35). -/
def output (e : Event) (s : State) : State := { s with trace := s.trace ++ [e] }

/-- `Done(status)`: the operation is over and `busy` falls (R27, R32, R186). -/
def finish (st : Status) (s : State) : State := { s with trace := s.trace ++ [.done st], busy := false }

/-- Fault entry, `raise X` (R184): the first fault wins, the pass's buffer is dropped, the operation ends with
`Done(FAULTED)`; writes already handed over and the history stand, `FORCE` is not cleared. -/
def raise (c : Cause) (s : State) : State :=
  finish .faulted
    { s with faultReg := if s.faultReg = 0 then c.code else s.faultReg, cmdbuf := [] }

/-- What is left of the fault state is cleared by `INIT` and reset only (R189); this is that clearing. -/
def clearFault (s : State) : State := { s with faultReg := 0 }

/-- The flow of an operation: it goes on, or a fault has ended it (R184 (2)). -/
inductive Flow where
  | on (s : State)
  | ended (s : State)
  deriving DecidableEq, Repr

/-- The state a flow stands at. -/
def Flow.state : Flow → State
  | .on s => s
  | .ended s => s

/-- Goes on with `f` unless the operation has ended. -/
def Flow.andThen (x : Flow) (f : State → Flow) : Flow :=
  match x with
  | .on s => f s
  | .ended s => .ended s

/-- Runs `f` for each element in order until the operation ends. -/
def runEach {α : Type} (f : α → State → Flow) : List α → State → Flow
  | [], s => .on s
  | a :: as, s => (f a s).andThen (runEach f as)

/-! The command buffer and the transport. -/

/-- `Emit(bytes)` with its capacity check (R21, R128). -/
def emit (bytes : List Byte) (s : State) : Flow :=
  if s.cmdbuf.length + bytes.length ≤ Config.cmdBufBytes then
    .on { s with cmdbuf := s.cmdbuf ++ bytes }
  else .ended (raise .capacity s)

/-- `WRIDX <- 0` at the start of a pass (R21). -/
def clearBuf (s : State) : State := { s with cmdbuf := [] }

/-- `TxWrite(CMDBUF[0 .. WRIDX-1])` (R30, R44): the buffer is handed over whole. -/
def txWrite (s : State) : State :=
  { s with trace := s.trace ++ [.txWrite s.cmdbuf], cmdbuf := [] }

/-- The close of a written pass: `Emit([0x00, 0x00])`, then `TxWrite` (R124, R155, R173). -/
def closePass (s : State) : Flow := (emit terminator s).andThen (fun t => .on (txWrite t))

/-- The meaning of a wire command: its bytes go through `Emit` (R140 to R155, R128), unless an operand is
outside the domain the spec gives the generator (R156, R157; log 12).
DESIGN CHOICE, unsafe: a command presented by itself tests neither `FAULT` nor `en`, `tp_present`, `ok`, `tx_empty`; the
spec gives such a command no port and no guard (log 25). -/
def command (checks : List (Option Refusal)) (bytes : List Byte) (s : State) :
    Host.Outcome State Fault Refusal :=
  match checks.findSome? id with
  | some r => .refused r
  | none => .next (emit bytes s).state

/-! Acceptance, staging, reset. -/

/-- Acceptance of a host operation: the input levels are sampled and `busy` rises (R27, R28, R32). -/
def accept (p : Ports) (s : State) : State := { s with ports := p, busy := true }

/-- One write through the staging port; `CFG` is not touched (R32, R81). -/
def stageWrite (idx wdata : Nat) (s : State) : State :=
  { s with staged := Sparse.put Descriptor.zero s.staged idx (unpackDescriptor s.par.chW wdata) }

/-- Reset by `rst` (R200): the reset state of R34; an operation in progress is abandoned without `Done`. The
staging table, the inputs and the events already output are not the reset's (log 19). -/
def hardReset (s : State) : State :=
  { s with
    cfg := [], last := [], force := true, faultReg := 0, total := 0, occ := 1
    cmdbuf := [], busy := false, settleTimer := 0 }

/-- The settle timer is started with `SETTLE_DELAY` (R192). -/
def startSettle (s : State) : State := { s with settleTimer := s.par.settleDelay }

/-- The settle wait is over: the timer is idle again and `Settle()` marks the end (R175, R192). -/
def endSettle (s : State) : State := { s with settleTimer := 0, trace := s.trace ++ [.settle] }

end Sys2Proof.Machine
end

