-- ==== Sys2Proof/Machine/AllOff.lean ====
section
/-! DEFINITION. The All-Off Encoder (`43_all_off.md`): the operation `ALLOFF`. -/

namespace Sys2Proof.Machine

/-- The bank-off commands of a pass of `nb` banks, highest bank first (R172, R173). -/
def offCommands (unit : Byte) (nb : Nat) : List (List Byte) :=
  (List.range nb).reverse.map (fun b => genOff unit (BitVec.ofNat 6 b))

/-- `ALLOFF_PASS` for a pass that has a bank; a pass of no channel is stepped over (R170, R173). -/
def allOffPass (p : PassSpec) (s : State) : Flow :=
  if p.nb = 0 then .on s
  else (runEach emit (offCommands p.unit p.nb) (clearBuf s)).andThen closePass

/-- What follows the last pass: the heartbeat, the settle wait, `Done(DONE)` (R174, R175, R192). -/
def endAllOff (s : State) : State := finish .done (endSettle (startSettle (output .heartbeat s)))

/-- The body of `ALLOFF` once its guards have passed (R170). It reads no channel index, so `START` is not used. -/
def allOffBody (s : State) : State :=
  match runEach allOffPass (layout 0 s.cfg) s with
  | .on t => endAllOff t
  | .ended t => t

/-- `ALLOFF` with its guards (R170, R171): the fault lock, then not ready; no backpressure test. -/
def allOffOp (s : State) : State :=
  if s.faultReg ≠ 0 then finish .faulted s
  else if !s.ports.ready then finish .skipNotReady s
  else allOffBody s

/-- `ALLOFF` (R170). -/
def execAlloff (s : State) : Host.Outcome State Fault Refusal := .next (allOffOp s)

end Sys2Proof.Machine
end

