-- ==== Sys2Proof/Machine/Bank0.lean ====
section
/-! DEFINITION. The bank-0 commands, format `B0` (`42_command_generator.md` R141 to R147; bytes of R63). -/

namespace Sys2Proof.Machine

/-- `ONL0 unit, lsb` (R141). -/
def execOnl0 (u l : Byte) (s : State) : Host.Outcome State Fault Refusal :=
  command [unitRefusal u, maskRefusal l] [0x00, u, 0x11, l] s

/-- `ONM0 unit, msb` (R142). -/
def execOnm0 (u m : Byte) (s : State) : Host.Outcome State Fault Refusal :=
  command [unitRefusal u, maskRefusal m] [0x00, u, 0x21, m] s

/-- `ONLM0 unit, lsb, msb` (R143). -/
def execOnlm0 (u l m : Byte) (s : State) : Host.Outcome State Fault Refusal :=
  command [unitRefusal u, maskRefusal l, maskRefusal m] [0x00, u, 0x31, l, m] s

/-- `SETL0 unit, val, lsb` (R144). -/
def execSetl0 (u v l : Byte) (s : State) : Host.Outcome State Fault Refusal :=
  command [unitRefusal u, maskRefusal l] [0x00, u, 0x13, v, l] s

/-- `SETM0 unit, val, msb` (R145). -/
def execSetm0 (u v m : Byte) (s : State) : Host.Outcome State Fault Refusal :=
  command [unitRefusal u, maskRefusal m] [0x00, u, 0x23, v, m] s

/-- `SETLM0 unit, val, lsb, msb` (R146). -/
def execSetlm0 (u v l m : Byte) (s : State) : Host.Outcome State Fault Refusal :=
  command [unitRefusal u, maskRefusal l, maskRefusal m] [0x00, u, 0x33, v, l, m] s

/-- `OFFB0 unit` (R147). -/
def execOffb0 (u : Byte) (s : State) : Host.Outcome State Fault Refusal :=
  command [unitRefusal u] [0x00, u, 0x41] s

end Sys2Proof.Machine
end

