-- ==== Sys2Proof/Machine/Banked.lean ====
section
/-! DEFINITION. The banked commands, format `BN` (`42_command_generator.md` R148 to R154; bytes of R65), and the
terminator (R155). -/

namespace Sys2Proof.Machine

/-- `ONLMN unit, bank, lsb, msb` (R148). -/
def execOnlmn (u : Byte) (b : BankIx) (l m : Byte) (s : State) : Host.Outcome State Fault Refusal :=
  command [unitRefusal u, bankRefusal b, maskRefusal l, maskRefusal m]
    [0x00, u, 0x51, b.setWidth 8, l, m] s

/-- `ONLN unit, bank, lsb` (R149). -/
def execOnln (u : Byte) (b : BankIx) (l : Byte) (s : State) : Host.Outcome State Fault Refusal :=
  command [unitRefusal u, bankRefusal b, maskRefusal l] [0x00, u, 0x51, 0x40 ||| b.setWidth 8, l] s

/-- `ONMN unit, bank, msb` (R150). -/
def execOnmn (u : Byte) (b : BankIx) (m : Byte) (s : State) : Host.Outcome State Fault Refusal :=
  command [unitRefusal u, bankRefusal b, maskRefusal m] [0x00, u, 0x51, 0x80 ||| b.setWidth 8, m] s

/-- `OFFBN unit, bank` (R151). -/
def execOffbn (u : Byte) (b : BankIx) (s : State) : Host.Outcome State Fault Refusal :=
  command [unitRefusal u, bankRefusal b] [0x00, u, 0x51, 0xC0 ||| b.setWidth 8] s

/-- `SETLMN unit, val, bank, lsb, msb` (R152). -/
def execSetlmn (u v : Byte) (b : BankIx) (l m : Byte) (s : State) : Host.Outcome State Fault Refusal :=
  command [unitRefusal u, bankRefusal b, maskRefusal l, maskRefusal m]
    [0x00, u, 0x53, v, b.setWidth 8, l, m] s

/-- `SETLN unit, val, bank, lsb` (R153). -/
def execSetln (u v : Byte) (b : BankIx) (l : Byte) (s : State) : Host.Outcome State Fault Refusal :=
  command [unitRefusal u, bankRefusal b, maskRefusal l] [0x00, u, 0x53, v, 0x40 ||| b.setWidth 8, l] s

/-- `SETMN unit, val, bank, msb` (R154). -/
def execSetmn (u v : Byte) (b : BankIx) (m : Byte) (s : State) : Host.Outcome State Fault Refusal :=
  command [unitRefusal u, bankRefusal b, maskRefusal m] [0x00, u, 0x53, v, 0x80 ||| b.setWidth 8, m] s

/-- `END` (R155): the terminator goes into the buffer through `Emit`, and the buffer is handed over, which is
what both rules that emit it do next (R124, R173; log 2).
DESIGN CHOICE, unsafe: presented by itself on an empty `CMDBUF` it hands over a bare `00 00`, which the block's own
operations never write (R124; log 26).
DESIGN CHOICE, unsafe: presented by itself it tests no guard, so it makes a `TxWrite` while `FAULT` is set, where R189
speaks of `FRAME` and `ALLOFF` only, and whatever `en`, `tp_present`, `ok` and `tx_empty` are (log 25). -/
def execEnd (s : State) : Host.Outcome State Fault Refusal := .next (closePass s).state

end Sys2Proof.Machine
end

