-- ==== Sys2Proof/Machine/Control.lean ====
section
/-! DEFINITION. The operations `NOP` and `INIT` (`70_reset_and_hazards.md` R202 to R204). -/

namespace Sys2Proof.Machine

/-- `NOP` (R204). -/
def execNop (s : State) : Host.Outcome State Fault Refusal := .next (finish .done s)

/-- The staged table of `cfg_count` entries, which `INIT` latches (R32, R202). -/
def stagedTable (s : State) : List Descriptor := (List.range s.ports.cfgCount).map (stagedAt s)

/-- The latch and the re-initialisation of `INIT`: `CFG` and `N_CTRL`, the history, `FORCE`, `FAULT` (R202). -/
def latchConfig (s : State) : State :=
  clearFault { s with cfg := stagedTable s, last := [], force := true }

/-- `CALC_TOTAL` (R100). -/
def calcTotal (s : State) : State :=
  { s with total := effTotal s.cfg, occ := occupancy s.cfg }

/-- `TOTAL` after an `INIT` that raises `ADDR_RANGE`: a free value of the register's width (R203, U7; log 10). -/
def loseTotal (s : State) : State :=
  { s with total := Config.freeTotal s.freeCount % 2 ^ (s.par.chW + 1), freeCount := s.freeCount + 1 }

/-- `INIT` (R202, R203). -/
def initOp (s : State) : State :=
  let t := calcTotal (latchConfig s)
  match validate t.par.maxChannels t.cfg with
  | none => finish .done t
  | some .addrRange => raise .addrRange (loseTotal t)
  | some c => raise c t

/-- `INIT` (R202). -/
def execInit (s : State) : Host.Outcome State Fault Refusal := .next (initOp s)

end Sys2Proof.Machine
end

