-- ==== Sys2Proof/Machine/Encoder.lean ====
section
/-! DEFINITION. The Frame Encoder (`41_frame_encoder.md`): grouping and differencing, emission, the write, and
the operation `FRAME`. -/

namespace Sys2Proof.Machine

/-- What the channel loop of R116 carries: the banks of the pass and the history memory. -/
structure Grouping where
  banks : List Bank
  last : Memory
  deriving DecidableEq, Repr

/-- One iteration of R116's channel loop, for channel offset `i` of the pass (R46, R113, R114, R115). -/
def groupChannel (src : Nat → Byte) (g0 : Nat) (p : Grouping) (i : Nat) : Grouping :=
  { banks := p.banks.modify (i / 16) (Bank.channel (src (g0 + i)) (p.last.read (g0 + i)) (i % 16))
    last := p.last.write (g0 + i) (src (g0 + i)) }

/-- The grouping phase of a pass (R116): every bank at its start, then the channels in ascending order. -/
def groupPass (src : Nat → Byte) (g0 len : Nat) (force : Bool) (last : Memory) : Grouping :=
  (List.range len).foldl (groupChannel src g0)
    { banks := List.replicate (ceil16 len) (Bank.start force), last := last }

/-- The commands of one changed bank, each as its bytes, in the precedence of R119: the all-off shortcut where
the one distinct value is 0 (R120), else the zero group in colour mode (R121), the full-on group (R122), the
remaining groups in insertion order (R123). -/
def bankCommands (p : Params) (unit : Byte) (b : BankIx) (bank : Bank) : List (List Byte) :=
  if bank.groups.map (·.val) = [0x00] then [genOff unit b]
  else
    (if bank.color then
      (bank.groups.filter (·.val == 0x00)).map (fun g => genSet unit b (wireValue p 0x00) g.mask)
    else []) ++
    (bank.groups.filter (·.val == 0xFF)).map (fun g => genOn unit b g.mask) ++
    (bank.groups.filter (isMid ·.val)).map (fun g => genSet unit b (wireValue p g.val) g.mask)

/-- `EmitBanks` (R118): the commands of the changed banks, from the highest index down to bank 0. -/
def passCommands (p : Params) (unit : Byte) (banks : List Bank) : List (List Byte) :=
  banks.zipIdx.reverse.flatMap
    (fun x => if x.1.chg then bankCommands p unit (BitVec.ofNat 6 x.2) x.1 else [])

/-- `WritePass` (R124). -/
def writePass (banks : List Bank) (s : State) : Flow :=
  if passChanged banks then closePass s else .on s

/-- The grouping of a pass in a state. -/
def groupingOf (s : State) (p : PassSpec) : Grouping := groupPass (srcRead s) p.g0 p.len s.force s.last

/-- The start of a pass and its grouping phase: `WRIDX <- 0`, and the history of its channels (R115, R116). -/
def beginPass (p : PassSpec) (s : State) : State :=
  { s with cmdbuf := [], last := (groupingOf s p).last }

/-- `ENCODE_PASS` (R116). -/
def encodePass (p : PassSpec) (s : State) : Flow :=
  (runEach emit (passCommands s.par p.unit (groupingOf s p).banks) (beginPass p s)).andThen
    (writePass (groupingOf s p).banks)

/-- The end of a frame that ran to its end (R125). -/
def endFrame (s : State) : State := finish .done { s with force := false }

/-- The start of the body of `FRAME`: a fresh free value for what the host's buffer may lack (log 11). -/
def startFrame (s : State) : State := { s with freeCount := s.freeCount + 1 }

/-- The body of `FRAME` once its guards have passed (R110). -/
def frameBody (s : State) : State :=
  match runEach encodePass (layout s.ports.opStart s.cfg) (startFrame s) with
  | .on t => endFrame t
  | .ended t => t

/-- `START + TOTAL > SRC_LEN` or `START + TOTAL > MAX_CHANNELS` (R51, R111). -/
def frameOutOfRange (s : State) : Bool :=
  decide (s.ports.opSrcLen < s.ports.opStart + s.total) || decide (s.par.maxChannels < s.ports.opStart + s.total)

/-- `FRAME` with its guards in the order of R110 and R188. -/
def frameOp (s : State) : State :=
  if s.faultReg ≠ 0 then finish .faulted s
  else if !s.ports.ready then finish .skipNotReady s
  else if !s.ports.txEmpty then finish .skipBackpressure (output (.log .backpressure) s)
  else if frameOutOfRange s then raise .addrRange s
  else frameBody s

/-- `FRAME` would run a layout of more channels than the `TOTAL` that R51 checked (log 14). -/
def strayLayout (s : State) : Bool :=
  decide (s.total < effTotal s.cfg) && decide (s.faultReg = 0) && s.ports.ready && s.ports.txEmpty
    && !frameOutOfRange s

/-- `FRAME` (R110). -/
def execFrame (s : State) : Host.Outcome State Fault Refusal :=
  if strayLayout s then .fault .absentAddress else .next (frameOp s)

end Sys2Proof.Machine
end

