-- ==== Sys2Proof/Machine/Dispatch.lean ====
section
/-! DEFINITION. What an instruction does to a state: one arm per constructor, each one call of its meaning. -/

namespace Sys2Proof.Machine

def exec (i : Instr) (s : State) : Host.Outcome State Fault Refusal :=
  match i with
  -- format B0
  | .onl0 u l => Sys2Proof.Machine.execOnl0 u l s
  | .onm0 u m => Sys2Proof.Machine.execOnm0 u m s
  | .onlm0 u l m => Sys2Proof.Machine.execOnlm0 u l m s
  | .setl0 u v l => Sys2Proof.Machine.execSetl0 u v l s
  | .setm0 u v m => Sys2Proof.Machine.execSetm0 u v m s
  | .setlm0 u v l m => Sys2Proof.Machine.execSetlm0 u v l m s
  | .offb0 u => Sys2Proof.Machine.execOffb0 u s
  -- format BN
  | .onlmn u b l m => Sys2Proof.Machine.execOnlmn u b l m s
  | .onln u b l => Sys2Proof.Machine.execOnln u b l s
  | .onmn u b m => Sys2Proof.Machine.execOnmn u b m s
  | .offbn u b => Sys2Proof.Machine.execOffbn u b s
  | .setlmn u v b l m => Sys2Proof.Machine.execSetlmn u v b l m s
  | .setln u v b l => Sys2Proof.Machine.execSetln u v b l s
  | .setmn u v b m => Sys2Proof.Machine.execSetmn u v b m s
  -- format TERM
  | .endWrite => Sys2Proof.Machine.execEnd s
  -- format HOSTOP
  | .nop => Sys2Proof.Machine.execNop s
  | .init => Sys2Proof.Machine.execInit s
  | .frame => Sys2Proof.Machine.execFrame s
  | .alloff => Sys2Proof.Machine.execAlloff s

end Sys2Proof.Machine
end

