-- ==== Sys2Proof/Machine/Sequencer.lean ====
section
/-! DEFINITION. What each act of the host does (R27, R32, R53, R200): the machine's way of fetching. -/

namespace Sys2Proof.Machine

/-- What is left of presented wire bytes stays next in line. -/
def requeue (rest : List Byte) (s : State) : State :=
  match rest with
  | [] => s
  | b :: bs => { s with pending := .wire (b :: bs) :: s.pending }

/-- A request for a host operation: ignored while `busy = 1`, else accepted and run (R27, R80). -/
def request (code : BitVec 2) (p : Ports) (s : State) : Host.Outcome State Fault Refusal :=
  if s.busy then .next s else exec (decodePort code) (accept p s)

/-- The first wire command of presented bytes is run, the rest stays in line (R60, R74, R140; log 1). -/
def present (bytes : List Byte) (s : State) : Host.Outcome State Fault Refusal :=
  match decode (.wire bytes) with
  | .ok (i, rest) => exec i (requeue rest s)
  | .error e => .refused (.invalidEncoding e)

/-- One act of the host. Staging is for `busy = 0` only and has no effect while an operation runs (R32; log 16). -/
def act (x : Stimulus) (s : State) : Host.Outcome State Fault Refusal :=
  match x with
  | .op code p => request code p s
  | .stage idx wdata => .next (if s.busy then s else stageWrite idx wdata s)
  | .rst => .next (hardReset s)
  | .wire bytes => present bytes s

end Sys2Proof.Machine
end

