-- ==== Sys2Proof/Machine/Step.lean ====
section
/-! DEFINITION. One step of the machine: the next act of the host, run to its end (R8, R23, R53). -/

namespace Sys2Proof.Machine

/-- One step. With nothing pending the block is idle and waits (R34). -/
def step (s : State) : Host.Outcome State Fault Refusal :=
  match s.pending with
  | [] => .next s
  | x :: rest => act x { s with pending := rest }

/-- The state with one instruction, given as a word of the opcode table, next in line: a host operation is
requested with the input levels the state holds, a wire command presented as its bytes. A host operation is
accepted only while `busy = 0`, so `busy` is low. -/
def State.withFetchWord (s : State) (nbits w : Nat) : State :=
  match tableEncoded nbits w with
  | none => s
  | some (.port code) => { s with pending := .op code s.ports :: s.pending, busy := false }
  | some (.wire bytes) => { s with pending := .wire bytes :: s.pending }

end Sys2Proof.Machine
end

