-- ==== Sys2Proof/Safety.lean ====
section
/-! DEFINITION. The terms the statements use: which configurations are legal, when an operation executes, the
invariant of the machine, and what a frame transmits, said without the block's loops. -/

namespace Sys2Proof.Machine

/-- Every controller passes the checks of `INIT` (R97, R98, R203). -/
abbrev cfgLegal (cfg : List Descriptor) : Prop := ∀ d ∈ cfg, controllerFault d = none

/-- The invariant of the machine between transitions. -/
structure BlockInv (s : State) : Prop where
  /-- the parameters satisfy R5's constraint -/
  widths : s.par.wf
  /-- the history memory is in canonical form -/
  lastWf : s.last.wf
  /-- and lists only addresses that exist (R13) -/
  lastIn : ∀ c ∈ s.last, c.1 < s.par.maxChannels
  /-- the staging table is in canonical form -/
  stagedWf : Sparse.wf Descriptor.zero s.staged
  /-- `OCC` is the map of `CFG`, entry 0 marked (R17, R100) -/
  occMap : s.occ = occupancy s.cfg
  /-- codes 5 to 7 are never written (R183) -/
  faultCode : s.faultReg.toNat ≤ 4
  /-- without a fault the configuration is legal, and `TOTAL` is its total, in range (R100, R203) -/
  legal : s.faultReg = 0 → cfgLegal s.cfg ∧ s.total = effTotal s.cfg ∧ s.total ≤ s.par.maxChannels
  /-- `WRIDX` stays in its range (R21, R128) -/
  bufBound : s.cmdbuf.length ≤ Config.cmdBufBytes
  /-- no operation is in progress between transitions (R8, R27) -/
  idle : s.busy = false
  /-- and the settle timer is idle (R192) -/
  timerIdle : s.settleTimer = 0

/-- The instruction's whole effect, wherever the buffer has room, is that its bytes are appended to `CMDBUF`. -/
def appends (i : Instr) (bytes : List Byte) : Prop :=
  ∀ s : State, s.cmdbuf.length + bytes.length ≤ Config.cmdBufBytes →
    exec i s = .next { s with cmdbuf := s.cmdbuf ++ bytes }

/-- `ALLOFF` passes its guards (R170) over a legal configuration. -/
structure AllOffRuns (s : State) : Prop where
  noFault : s.faultReg = 0
  ready : s.ports.ready = true
  legal : cfgLegal s.cfg

/-- `FRAME` passes its guards and its address check (R110) over a legal configuration that `TOTAL` covers. -/
structure FrameRuns (s : State) : Prop where
  noFault : s.faultReg = 0
  ready : s.ports.ready = true
  txEmpty : s.ports.txEmpty = true
  inSrc : s.ports.opStart + s.total ≤ s.ports.opSrcLen
  inLast : s.ports.opStart + s.total ≤ s.par.maxChannels
  legal : cfgLegal s.cfg
  covers : effTotal s.cfg ≤ s.total

/-- The passes `FRAME` makes in a state (R112). -/
def framePasses (s : State) : List PassSpec := layout s.ports.opStart s.cfg

/-- The bytes `FRAME` reads from `SRC` in a state. -/
def frameSrc (s : State) : Nat → Byte := srcRead (startFrame s)

/-- Channel index `a` belongs to a pass (R46, R48). -/
abbrev PassSpec.holds (p : PassSpec) (a : Nat) : Prop := p.g0 ≤ a ∧ a < p.g0 + p.len

/-- The values of bank `b` of a pass, channel 0 of the bank first (R46). -/
def bankValues (src : Nat → Byte) (p : PassSpec) (b : Nat) : List Byte :=
  (List.range (min 16 (p.len - 16 * b))).map (fun k => src (p.g0 + 16 * b + k))

/-- The distinct values of a list in the order of their first occurrence (R113). -/
def distinct : List Byte → List Byte
  | [] => []
  | v :: vs => v :: (distinct vs).filter (· != v)

/-- The mask of the channels of a bank that hold `v`: bit `k` for channel `k` (R18, R50). -/
def maskOf (v : Byte) (vals : List Byte) : Mask := (BitVec.ofBoolListLE (vals.map (· == v))).setWidth 16

/-- The grouping of a bank from its values alone (R18, R113). -/
def groupsOf (vals : List Byte) : List Group := (distinct vals).map (fun v => { val := v, mask := maskOf v vals })

/-- A bank after the grouping phase, from its values and its history (R114, R115, R131 (d)). -/
def bankOf (src old : Nat → Byte) (force : Bool) (p : PassSpec) (b : Nat) : Bank :=
  { groups := groupsOf (bankValues src p b)
    color := (bankValues src p b).any isMid
    chg := force || bankValues src p b != bankValues old p b }

/-- The banks of a pass after the grouping phase. -/
def banksOf (src old : Nat → Byte) (force : Bool) (p : PassSpec) : List Bank :=
  (List.range p.nb).map (bankOf src old force p)

/-- What a pass puts on the wire: nothing, or one write of the commands of its changed banks and the
terminator (R118, R124). -/
def passEvents (par : Params) (src old : Nat → Byte) (force : Bool) (p : PassSpec) : List Event :=
  if passChanged (banksOf src old force p) then
    [.txWrite ((passCommands par p.unit (banksOf src old force p)).flatten ++ terminator)]
  else []

/-- What a pass of `ALLOFF` puts on the wire (R173). -/
def offEvents (p : PassSpec) : List Event :=
  if p.nb = 0 then [] else [.txWrite ((offCommands p.unit p.nb).flatten ++ terminator)]

/-- The unit ID a record names; the terminator names none. -/
def recordUnit : Record → Option Byte
  | .on u _ _ => some u
  | .set u _ _ _ => some u
  | .off u _ => some u
  | .fin => none

/-- The bank a record names; the terminator names none. -/
def recordBank : Record → Option Nat
  | .on _ b _ => some b.toNat
  | .set _ b _ _ => some b.toNat
  | .off _ b => some b.toNat
  | .fin => none

/-- The bytes a pass's buffer holds if all its commands fit. -/
def passBytes (par : Params) (unit : Byte) (banks : List Bank) : List Byte :=
  (passCommands par unit banks).flatten ++ terminator

/-- A state at which the next act of the host is not a presentation of wire bytes. -/
def nextIsHostAct (s : State) : Bool :=
  match s.pending with
  | .wire _ :: _ => false
  | .op _ _ :: _ => true
  | .stage _ _ :: _ => true
  | .rst :: _ => true
  | [] => true

/-- The next act is a reset, or a request for `INIT` that is accepted. -/
def nextReconfigures (s : State) : Bool :=
  match s.pending with
  | .rst :: _ => true
  | .op code _ :: _ => !s.busy && code == 1
  | .stage _ _ :: _ => false
  | .wire _ :: _ => false
  | [] => false

/-- The next act is a request for `FRAME` that is accepted. -/
def nextIsFrame (s : State) : Bool :=
  match s.pending with
  | .op code _ :: _ => !s.busy && code == 2
  | .rst :: _ => false
  | .stage _ _ :: _ => false
  | .wire _ :: _ => false
  | [] => false

end Sys2Proof.Machine
end

