-- ==== Sys2Proof/Certificates/Slice0/Obligations.lean ====
section
/-! DEFINITION. The statements for the provers. -/

open Sys2Proof Sys2Proof.Machine

/-! Encodings. -/

/-- Decoding an encoded well-formed instruction gives it back, with every operand at every value; a wire command
other than the terminator decodes alike in front of any further bytes (R63, R65, R67, R72, R80). -/
def Obligations.DecodeInvertsEncode : Prop :=
  ∀ i : Instr, i.wf = true →
    decode (encode i) = .ok (i, []) ∧
    (i.isWire = true → i ≠ .endWrite →
      ∀ rest : List Byte, decodeWire (encodeBytes i ++ rest) = .ok (i, rest))

/-- The decoder accepts nothing but encodings of well-formed wire commands, the terminator only at the end:
R73 (a) to (e) are rejected. -/
def Obligations.DecodedBytesAreEncodings : Prop :=
  ∀ (bytes rest : List Byte) (i : Instr), decodeWire bytes = .ok (i, rest) →
    i.isWire = true ∧ i.wf = true ∧ bytes = encodeBytes i ++ rest ∧ (i = .endWrite → rest = [])

/-- A write the decoder accepts ends with the terminator, has a command's records before it and none after it,
and is what its commands encode to (R73 (f), R74). -/
def Obligations.DecodedWritesAreCommandSequences : Prop :=
  ∀ (bytes : List Byte) (rs : List Record), decodeWrite bytes = .ok rs ↔
    ∃ cmds : List Instr,
      (∀ i ∈ cmds, i.isWire = true ∧ i.wf = true ∧ i ≠ .endWrite) ∧
      bytes = cmds.flatMap encodeBytes ++ [0x00, 0x00] ∧
      rs = cmds.flatMap (fun i => i.record.toList) ++ [.fin]

/-- The round-trip law of R74 and R160, and distinct operands in the generator's domain give distinct bytes
(R157, R160). The value byte of a command that has none is no operand. -/
def Obligations.DecodeInvertsGenerator : Prop :=
  (∀ (u v : Byte) (b : BankIx) (m : Mask), unitOk u = true → m ≠ 0 →
    decodeWrite (genSet u b v m ++ terminator) = .ok [.set u b v m, .fin] ∧
    decodeWrite (genOn u b m ++ terminator) = .ok [.on u b m, .fin]) ∧
  (∀ (u : Byte) (b : BankIx), unitOk u = true →
    decodeWrite (genOff u b ++ terminator) = .ok [.off u b, .fin]) ∧
  (∀ (u u' v v' : Byte) (b b' : BankIx) (vb vb' : Bool) (m m' : Mask), unitOk u = true → unitOk u' = true →
    m ≠ 0 → m' ≠ 0 → gen u b vb v m = gen u' b' vb' v' m' →
      u = u' ∧ b = b' ∧ vb = vb' ∧ m = m' ∧ (vb = true → v = v')) ∧
  (∀ (u u' : Byte) (b b' : BankIx), unitOk u = true → unitOk u' = true →
    genOff u b = genOff u' b' → u = u' ∧ b = b') ∧
  (∀ (u u' v : Byte) (b b' : BankIx) (vb : Bool) (m : Mask), unitOk u = true → unitOk u' = true → m ≠ 0 →
    gen u b vb v m ≠ genOff u' b')

/-- The generic forms expand to the instruction whose bytes the generator gives, and stand for the record of
their own operands (R69, R75, R158, R159). -/
def Obligations.GenericFormsEncodeAsGenerated : Prop :=
  ∀ (u v : Byte) (b : BankIx) (m : Mask),
    (m ≠ 0 →
      encodeBytes (onForm u b m) = genOn u b m ∧ (onForm u b m).record = some (.on u b m) ∧
      encodeBytes (setForm u b v m) = genSet u b v m ∧ (setForm u b v m).record = some (.set u b v m)) ∧
    encodeBytes (offForm u b) = genOff u b ∧ (offForm u b).record = some (.off u b)

/-- Words written out from R63, R65, R67 and R80 decode to the instruction they stand for. How a word of the opcode
table numbers its bits, and that a row of at most 8 bits is an `op_code`, is the model's reading (log 3); the last two
clauses rest on it. -/
def Obligations.TableWordsDecode : Prop :=
  decodeWire [0x00, 0x07, 0x11, 0xA5] = .ok (.onl0 0x07 0xA5, []) ∧
  decodeWire [0x00, 0x07, 0x33, 0x01, 0x01, 0x80] = .ok (.setlm0 0x07 0x01 0x01 0x80, []) ∧
  decodeWire [0x00, 0x07, 0x51, 0xFF] = .ok (.offbn 0x07 63, []) ∧
  decodeWire [0x00, 0x07, 0x53, 0xFE, 0x03, 0x34, 0x12] = .ok (.setlmn 0x07 0xFE 3 0x34 0x12, []) ∧
  decodeWire [0x00, 0x00] = .ok (.endWrite, []) ∧
  decode (.port 2) = .ok (.frame, []) ∧ decode (.port 3) = .ok (.alloff, []) ∧
  decodeTableWord 32 0x000711A5 = some (.onl0 0x07 0xA5) ∧ decodeTableWord 8 1 = some .init

/-- Every staging word is read by the places of R81 and the codes of R12, `amode` code 3 as Normal among them; and the
word of a descriptor holds that descriptor. -/
def Obligations.StagingWordHoldsTheDescriptor : Prop :=
  (∀ (chW n : Nat) (t : BitVec 3) (a : BitVec 2) (u : Byte), n < 2 ^ chW →
    ∃ d : Descriptor,
      unpackDescriptor chW (t.toNat * 2 ^ (chW + 10) + a.toNat * 2 ^ (chW + 8) + u.toNat * 2 ^ chW + n) = d ∧
      d.chanCount = n ∧ d.unitId = u ∧ dtypeCode d.dtype = t ∧
      (a = 0 → d.amode = .normal) ∧ (a = 1 → d.amode = .legacy) ∧ (a = 2 → d.amode = .split) ∧
      (a = 3 → d.amode = .normal)) ∧
  ∀ (chW : Nat) (d : Descriptor), d.chanCount < 2 ^ chW →
    unpackDescriptor chW (packDescriptor chW d) = d ∧ packDescriptor chW d < 2 ^ (13 + chW)

/-! The wire commands. -/

/-- Each bank-0 command appends the bytes of its rule to `CMDBUF` and changes nothing else (R141 to R147; that it is
an instruction by itself, which no guard holds back, is the model's choice, logs 1 and 25). -/
def Obligations.BankZeroCommandsAppendTheirBytes : Prop :=
  ∀ u v l m : Byte, unitOk u = true → maskOk l = true → maskOk m = true →
    appends (.onl0 u l) [0x00, u, 0x11, l] ∧
    appends (.onm0 u m) [0x00, u, 0x21, m] ∧
    appends (.onlm0 u l m) [0x00, u, 0x31, l, m] ∧
    appends (.setl0 u v l) [0x00, u, 0x13, v, l] ∧
    appends (.setm0 u v m) [0x00, u, 0x23, v, m] ∧
    appends (.setlm0 u v l m) [0x00, u, 0x33, v, l, m] ∧
    appends (.offb0 u) [0x00, u, 0x41]

/-- Each banked command appends the bytes of its rule to `CMDBUF` and changes nothing else (R148 to R154; that it is
an instruction by itself, which no guard holds back, is the model's choice, logs 1 and 25). -/
def Obligations.BankedCommandsAppendTheirBytes : Prop :=
  ∀ (u v l m : Byte) (b : BankIx),
    unitOk u = true → bankOk b = true → maskOk l = true → maskOk m = true →
    appends (.onlmn u b l m) [0x00, u, 0x51, 0x00 ||| b.setWidth 8, l, m] ∧
    appends (.onln u b l) [0x00, u, 0x51, 0x40 ||| b.setWidth 8, l] ∧
    appends (.onmn u b m) [0x00, u, 0x51, 0x80 ||| b.setWidth 8, m] ∧
    appends (.offbn u b) [0x00, u, 0x51, 0xC0 ||| b.setWidth 8] ∧
    appends (.setlmn u v b l m) [0x00, u, 0x53, v, 0x00 ||| b.setWidth 8, l, m] ∧
    appends (.setln u v b l) [0x00, u, 0x53, v, 0x40 ||| b.setWidth 8, l] ∧
    appends (.setmn u v b m) [0x00, u, 0x53, v, 0x80 ||| b.setWidth 8, m]

/-- The generic forms append what the generator gives, for every unit in range, bank and non-zero mask (R158, R159;
that such a form is an instruction by itself, which appends its bytes and which no guard holds back, is the model's
choice, logs 1 and 25). -/
def Obligations.GenericFormsAppendGeneratedBytes : Prop :=
  ∀ (u v : Byte) (b : BankIx) (m : Mask), unitOk u = true →
    (m ≠ 0 → appends (onForm u b m) (genOn u b m) ∧ appends (setForm u b v m) (genSet u b v m)) ∧
    appends (offForm u b) (genOff u b)

/-- `END` puts the terminator behind what the buffer holds and hands the buffer over as one write (R124, R155;
that the write is part of `END` is the model's reading, log 2; that it tests no guard and that it writes on an empty
buffer too are its choices, logs 25 and 26). -/
def Obligations.EndClosesTheWrite : Prop :=
  ∀ s : State, s.cmdbuf.length + 2 ≤ Config.cmdBufBytes →
    exec .endWrite s =
      .next { s with cmdbuf := [], trace := s.trace ++ [.txWrite (s.cmdbuf ++ [0x00, 0x00])] }

/-- A well-formed wire command that does not fit takes the fault entry of R184 with cause `CAPACITY`: nothing is
stored, the buffer is dropped, an earlier fault is kept, the trace ends with `Done(FAULTED)` (R128, R184; that a
command by itself takes the whole entry is the model's choice, log 15). -/
def Obligations.CommandThatDoesNotFitFaults : Prop :=
  ∀ (i : Instr) (s : State), i.isWire = true → i.wf = true →
    Config.cmdBufBytes < s.cmdbuf.length + (encodeBytes i).length →
    exec i s = .next { s with
      faultReg := (if s.faultReg = 0 then 1 else s.faultReg), cmdbuf := []
      trace := s.trace ++ [.done .faulted], busy := false }

/-- A wire command with an operand outside the generator's domain is refused by name, and one inside it never is
(R156, R157, U1, U2; that the model stops there by name is its choice, log 12). -/
def Obligations.CommandsRefusedExactlyOutsideDomain : Prop :=
  ∀ (i : Instr) (s : State), i.isWire = true →
    ((i.wf = false → exec i s = .refused .unitOutOfRange ∨ exec i s = .refused .bankOutOfRange ∨
      exec i s = .refused .zeroMask) ∧
     (i.wf = true → ∃ t, exec i s = .next t))

/-- A valid write presented command by command goes out as that one write, unchanged, and nothing else changes
(R60, R74; that bytes are presented so and that no guard holds them back is the model's choice, logs 1 and 25, that
`END` writes its reading, log 2). -/
def Obligations.PresentedWriteGoesOutUnchanged : Prop :=
  ∀ (s : State) (bytes : List Byte) (rs : List Record) (q : List Stimulus),
    decodeWrite bytes = .ok rs → bytes.length ≤ Config.cmdBufBytes → s.cmdbuf = [] →
    s.pending = .wire bytes :: q →
    Host.Core.run Sys2Proof.core rs.length s =
      .next { s with pending := q, trace := s.trace ++ [.txWrite bytes] }

/-! The layout planner. -/

/-- `PLAN` in the selection order of R91. -/
def Obligations.PlanSelectsByTypeAndMode : Prop :=
  ∀ d : Descriptor,
    (d.dtype = .malformed ∨ d.chanCount = 0 → plan d = ⟨0, 0, 0⟩) ∧
    (d.dtype ≠ .malformed → d.chanCount ≠ 0 →
      (d.dtype = .pixie4 → plan d = ⟨d.chanCount * 4, d.chanCount, 4⟩) ∧
      (d.dtype = .pixie8 → plan d = ⟨d.chanCount * 8, d.chanCount, 8⟩) ∧
      (d.dtype = .pixie16 → plan d = ⟨d.chanCount * 16, d.chanCount, 16⟩) ∧
      (pixiePorts d.dtype = none → d.amode = .legacy → plan d = ⟨d.chanCount, 16, (d.chanCount + 15) / 16⟩) ∧
      (pixiePorts d.dtype = none → d.amode = .split → plan d = ⟨d.chanCount, d.chanCount / 2, 2⟩) ∧
      (pixiePorts d.dtype = none → d.amode = .normal → plan d = ⟨d.chanCount, d.chanCount, 1⟩))

/-- The passes of a Legacy controller: one bank each, 16 channels in all but the last, 1 to 16 in the last,
consecutive units, nothing past the channel count (R93). -/
def Obligations.LegacyPassesAreSingleBanks : Prop :=
  ∀ (d : Descriptor) (base p : Nat), pixiePorts d.dtype = none → d.dtype ≠ .malformed → d.amode = .legacy →
    d.chanCount ≠ 0 → p < (plan d).npass →
    (plan d).npass = (d.chanCount + 15) / 16 ∧ (plan d).cpp = 16 ∧
    (passSpec d base p).unit = d.unitId + BitVec.ofNat 8 p ∧ (passSpec d base p).g0 = base + 16 * p ∧
    (passSpec d base p).nb = 1 ∧
    (p + 1 < (plan d).npass → (passSpec d base p).len = 16) ∧
    (p + 1 = (plan d).npass → (passSpec d base p).len = d.chanCount - 16 * ((plan d).npass - 1)) ∧
    1 ≤ (passSpec d base p).len ∧ (passSpec d base p).len ≤ 16 ∧
    (passSpec d base p).g0 + (passSpec d base p).len ≤ base + d.chanCount

/-- Pixie, Split and Normal passes all hold `CPP` channels; together they are all of the controller's channels,
but for the last one of an odd Split controller, which no pass holds (R92, R94, R95, R102). -/
def Obligations.EqualPassesCoverTheController : Prop :=
  ∀ (d : Descriptor) (base : Nat),
    ¬ (pixiePorts d.dtype = none ∧ d.dtype ≠ .malformed ∧ d.amode = .legacy) →
    (∀ p ∈ passesOf d base, p.len = (plan d).cpp) ∧
    (∀ a, (∃ p ∈ passesOf d base, p.holds a) ↔
      base ≤ a ∧ a < base + (plan d).eff ∧
        ¬ (pixiePorts d.dtype = none ∧ d.amode = .split ∧ d.chanCount % 2 = 1 ∧ a = base + d.chanCount - 1))

/-- The passes of a table lie one behind the other inside the range the address check covers: no channel index is
visited twice, none outside `START .. START + (sum of EFF) - 1` (R42, R48, R112). -/
def Obligations.LayoutVisitsNoChannelTwice : Prop :=
  ∀ (start : Nat) (cfg : List Descriptor),
    (layout start cfg).Pairwise (fun p q => p.g0 + p.len ≤ q.g0) ∧
    ∀ p ∈ layout start cfg, start ≤ p.g0 ∧ p.g0 + p.len ≤ start + effTotal cfg

/-- Every pass of a controller that passes the checks of `INIT` has a unit byte in 1 to 254, computed without
wrapping, and at most 64 banks (R97, R98). -/
def Obligations.LegalPassesHaveLegalUnitsAndBanks : Prop :=
  ∀ (d : Descriptor) (base p : Nat), controllerFault d = none → p < (plan d).npass →
    (passSpec d base p).unit.toNat = d.unitId.toNat + p ∧
    1 ≤ d.unitId.toNat + p ∧ d.unitId.toNat + p ≤ 254 ∧
    unitOk (passSpec d base p).unit = true ∧ (passSpec d base p).nb ≤ 64

/-- `OCC` is 1 exactly at 0 and at the unit IDs the controllers consume (R97, R99, R100). -/
def Obligations.OccupancyMarksConsumedUnits : Prop :=
  ∀ (cfg : List Descriptor) (u : Nat), u ≤ 254 →
    ((occupancy cfg).getLsbD u = true ↔
      u = 0 ∨ ∃ d ∈ cfg, ∃ p, p < (plan d).npass ∧ d.unitId.toNat + p = u)

/-- `VALIDATE` reports the first controller in table order that fails, `UNIT_RANGE` before `BANK_RANGE`, and
`ADDR_RANGE` only when none does and the total exceeds `MAX_CHANNELS` (R188, R203). -/
def Obligations.ValidateReportsFirstFailure : Prop :=
  ∀ (maxChannels : Nat) (cfg : List Descriptor) (c : Cause),
    validate maxChannels cfg = some c ↔
      (∃ (pre post : List Descriptor) (d : Descriptor), cfg = pre ++ d :: post ∧ cfgLegal pre ∧
        0 < (plan d).npass ∧
        ((d.unitId = 0 ∨ 254 < d.unitId.toNat + (plan d).npass - 1) ∧ c = .unitRange ∨
         ¬ (d.unitId = 0 ∨ 254 < d.unitId.toNat + (plan d).npass - 1) ∧ 1024 < (plan d).cpp ∧ c = .bankRange)) ∨
      (cfgLegal cfg ∧ maxChannels < effTotal cfg ∧ c = .addrRange)

/-! `NOP`, `INIT`, reset, the staging port. -/

/-- `NOP` changes nothing and ends with `Done(DONE)` (R204). -/
def Obligations.NopOnlyReportsDone : Prop :=
  ∀ s : State, exec .nop s = .next { s with trace := s.trace ++ [.done .done], busy := false }

/-- `INIT` with a legal table: the staged descriptors of the indices below `cfg_count` are latched, the history and
the flags re-initialised, `TOTAL` and `OCC` recomputed, `Done(DONE)`; nothing else changes (R32, R100, R202, R203). -/
def Obligations.InitLatchesLegalTable : Prop :=
  ∀ s : State, validate s.par.maxChannels (stagedTable s) = none →
    (stagedTable s).length = s.ports.cfgCount ∧
    (∀ c, c < s.ports.cfgCount → (stagedTable s)[c]? = some (stagedAt s c)) ∧
    exec .init s = .next { s with
      cfg := stagedTable s, last := [], force := true, faultReg := 0
      total := effTotal (stagedTable s), occ := occupancy (stagedTable s)
      trace := s.trace ++ [.done .done], busy := false }

/-- `INIT` with a table that fails a check: the same latch and re-initialisation, the cause of the first failure in
`FAULT`, `Done(FAULTED)`; `TOTAL` is the sum unless the cause is `ADDR_RANGE` (R184, R202, R203; that the sum is kept
whole is the model's reading, log 23). -/
def Obligations.InitFaultsOnIllegalTable : Prop :=
  ∀ (s : State) (c : Cause), validate s.par.maxChannels (stagedTable s) = some c →
    ∃ t, exec .init s = .next t ∧ t.cfg = stagedTable s ∧ t.last = [] ∧ t.force = true ∧
      t.faultReg = c.code ∧ t.occ = occupancy (stagedTable s) ∧
      (c ≠ .addrRange → t.total = effTotal (stagedTable s)) ∧
      t.trace = s.trace ++ [.done .faulted] ∧ t.busy = false ∧
      t.par = s.par ∧ t.settleTimer = s.settleTimer ∧ t.staged = s.staged ∧ t.ports = s.ports ∧ t.pending = s.pending

/-- A write through the staging port changes the staged descriptor of its index and nothing else, `CFG` least of
all (R32, R81). -/
def Obligations.StagingChangesOneEntry : Prop :=
  ∀ (s : State) (idx w : Nat) (q : List Stimulus), Sparse.wf Descriptor.zero s.staged → s.busy = false →
    s.pending = .stage idx w :: q →
    ∃ t, step s = .next t ∧
      (∀ c, stagedAt t c = if c = idx then unpackDescriptor s.par.chW w else stagedAt s c) ∧
      t = { s with staged := t.staged, pending := q }

/-- The state right after reset, and what `rst` does to any state: the values of R34 and R200, no event. -/
def Obligations.ResetGivesTheResetValues : Prop :=
  (State.reset.nCtrl = 0 ∧ (∀ a, State.reset.last.read a = 0xFF) ∧ State.reset.force = true ∧
    State.reset.faultReg = 0 ∧ State.reset.total = 0 ∧
    (∀ u : Byte, u ≠ 0xFF → State.reset.occBit u = decide (u = 0)) ∧
    State.reset.busy = false ∧ State.reset.settleTimer = 0 ∧ State.reset.trace = []) ∧
  ∀ (s : State) (q : List Stimulus), s.pending = .rst :: q →
    ∃ t, step s = .next t ∧ t.nCtrl = 0 ∧ (∀ a, t.last.read a = 0xFF) ∧ t.force = true ∧
      t.faultReg = 0 ∧ t.total = 0 ∧ (∀ u : Byte, u ≠ 0xFF → t.occBit u = decide (u = 0)) ∧
      t.busy = false ∧ t.settleTimer = 0 ∧ t.trace = s.trace ∧ t.par = s.par ∧ t.pending = q

/-! `FRAME`. -/

/-- The fault lock (R133). -/
def Obligations.FrameLockedByFault : Prop :=
  ∀ s : State, s.faultReg ≠ 0 →
    exec .frame s = .next { s with trace := s.trace ++ [.done .faulted], busy := false }

/-- The not-ready guard (R126). -/
def Obligations.FrameSkipsWhenNotReady : Prop :=
  ∀ s : State, s.faultReg = 0 →
    (s.ports.en = false ∨ s.ports.tpPresent = false ∨ s.ports.ok = false) →
    exec .frame s = .next { s with trace := s.trace ++ [.done .skipNotReady], busy := false }

/-- The backpressure skip (R127). -/
def Obligations.FrameDroppedForBackpressure : Prop :=
  ∀ s : State, s.faultReg = 0 → s.ports.ready = true → s.ports.txEmpty = false →
    exec .frame s = .next { s with
      trace := s.trace ++ [.log .backpressure, .done .skipBackpressure], busy := false }

/-- The address check comes after the guards; where it fails, `FAULT` takes `ADDR_RANGE` and nothing else changes (R51,
R111, R188) but that the buffer is empty, as after every fault, which is the model's choice (log 5, after R184). -/
def Obligations.FrameFaultsOutOfRange : Prop :=
  ∀ s : State, s.faultReg = 0 → s.ports.ready = true → s.ports.txEmpty = true →
    (s.ports.opSrcLen < s.ports.opStart + s.total ∨ s.par.maxChannels < s.ports.opStart + s.total) →
    exec .frame s = .next { s with
      faultReg := 4, cmdbuf := [], trace := s.trace ++ [.done .faulted], busy := false }

/-- The grouping loop of a pass gives the banks its values and its history determine, and leaves in the history
the values of the pass's channels (R113, R114, R115, R116, R117). -/
def Obligations.GroupingLoopMatchesValues : Prop :=
  ∀ (src : Nat → Byte) (p : PassSpec) (force : Bool) (last : Memory), last.wf →
    (groupPass src p.g0 p.len force last).banks = banksOf src last.read force p ∧
    (groupPass src p.g0 p.len force last).last.wf ∧
    ∀ a, (groupPass src p.g0 p.len force last).last.read a = if p.holds a then src a else last.read a

/-- After the grouping phase: at most 16 entries a bank, values distinct, masks non-zero and disjoint, together
exactly the channels of the bank (R18, R113). -/
def Obligations.GroupsPartitionTheBank : Prop :=
  ∀ (src : Nat → Byte) (p : PassSpec) (force : Bool) (last : Memory) (b : Nat) (bank : Bank), last.wf →
    (groupPass src p.g0 p.len force last).banks[b]? = some bank →
    bank.groups.length ≤ 16 ∧
    bank.groups.Pairwise (fun g h => g.val ≠ h.val ∧ g.mask &&& h.mask = 0) ∧
    (∀ g ∈ bank.groups, g.mask ≠ 0) ∧
    ∀ k, (∃ g ∈ bank.groups, g.mask.getLsbD k = true) ↔ k < min 16 (p.len - 16 * b)

/-- A frame that runs: pass by pass it writes the commands of the changed banks, each judged against the history
before the frame, and ends with `Done(DONE)`; `FORCE` is cleared, the history holds the frame's values at the
channels of the passes and is otherwise unchanged, and nothing else changes (R110 to R125); the counter of free values
is the model's own (log 11). -/
def Obligations.FrameTransmitsTheDelta : Prop :=
  ∀ s : State, FrameRuns s → s.last.wf →
    ∃ t, exec .frame s = .next t ∧
      t.trace = s.trace ++
        (framePasses s).flatMap (passEvents s.par (frameSrc s) s.last.read s.force) ++ [.done .done] ∧
      t.force = false ∧
      (∀ p ∈ framePasses s, ∀ a, p.holds a → t.last.read a = frameSrc s a) ∧
      (∀ a, (∀ p ∈ framePasses s, ¬ p.holds a) → t.last.read a = s.last.read a) ∧
      t = { s with last := t.last, force := false, cmdbuf := t.cmdbuf, trace := t.trace, busy := false
                   freeCount := s.freeCount + 1 }

/-- A frame in which no channel differs from the history, with `FORCE` clear, writes nothing (R131 (a)). -/
def Obligations.UnchangedFrameWritesNothing : Prop :=
  ∀ s : State, FrameRuns s → s.last.wf → s.force = false →
    (∀ p ∈ framePasses s, ∀ a, p.holds a → frameSrc s a = s.last.read a) →
    ∃ t, exec .frame s = .next t ∧ t.trace = s.trace ++ [.done .done] ∧ t.last = s.last

/-- A frame that runs while `FORCE` is set writes every pass that has a bank, whatever the history holds: one write for
each, in order, which decodes to commands for the pass's unit with at least one for each of its banks (R14, R20,
R118, R124). -/
def Obligations.ForcedFrameWritesEveryPass : Prop :=
  ∀ s : State, FrameRuns s → s.last.wf → s.force = true →
    ∃ (t : State) (evs : PassSpec → List Event), exec .frame s = .next t ∧
      t.trace = s.trace ++ (framePasses s).flatMap evs ++ [.done .done] ∧
      ∀ p ∈ framePasses s,
        (p.nb = 0 → evs p = []) ∧
        (0 < p.nb → ∃ (bytes : List Byte) (rs : List Record),
          evs p = [.txWrite bytes] ∧ decodeWrite bytes = .ok (rs ++ [.fin]) ∧
          (∀ r ∈ rs, recordUnit r = some p.unit) ∧ ∀ b, b < p.nb → ∃ r ∈ rs, recordBank r = some b)

/-- What a pass writes is a valid write: it decodes, to one or more commands and the terminator, all to the pass's
unit, in descending bank order, for changed banks only (R73, R118, R124, R131). -/
def Obligations.PassWritesDecodeInDescendingOrder : Prop :=
  ∀ (par : Params) (src old : Nat → Byte) (force : Bool) (p : PassSpec) (bytes : List Byte),
    unitOk p.unit = true → p.nb ≤ 64 → Event.txWrite bytes ∈ passEvents par src old force p →
    ∃ rs : List Record, decodeWrite bytes = .ok (rs ++ [.fin]) ∧ rs ≠ [] ∧
      (∀ r ∈ rs, recordUnit r = some p.unit) ∧
      (rs.filterMap recordBank).Pairwise (· ≥ ·) ∧
      (∀ b, b ∈ rs.filterMap recordBank ↔
        b < p.nb ∧ (force = true ∨ bankValues src p b ≠ bankValues old p b))

/-- A bank emits at most 16 commands, at most 96 bytes, 80 in bank 0, and a pass of at most 64 banks at most 6130
bytes with its terminator, so `CAPACITY` is not reached (R119, R129). -/
def Obligations.PassBytesStayBelowCapacity : Prop :=
  ∀ (par : Params) (src old : Nat → Byte) (force : Bool) (p : PassSpec),
    (∀ b, b < p.nb →
      1 ≤ (bankCommands par p.unit (BitVec.ofNat 6 b) (bankOf src old force p b)).length ∧
      (bankCommands par p.unit (BitVec.ofNat 6 b) (bankOf src old force p b)).length ≤ 16 ∧
      (bankCommands par p.unit (BitVec.ofNat 6 b) (bankOf src old force p b)).flatten.length
        ≤ (if BitVec.ofNat 6 b = 0 then 80 else 96)) ∧
    (p.nb ≤ 64 → (passBytes par p.unit (banksOf src old force p)).length ≤ 6130)

/-- The one command of a bank whose channels are all 0 is the all-off shortcut, a partial bank's too (R120). -/
def Obligations.UniformZeroBankIsOneOff : Prop :=
  ∀ (par : Params) (src old : Nat → Byte) (force : Bool) (p : PassSpec) (b : Nat), b < p.nb →
    (∀ v ∈ bankValues src p b, v = 0x00) →
    bankCommands par p.unit (BitVec.ofNat 6 b) (bankOf src old force p b) = [genOff p.unit (BitVec.ofNat 6 b)]

/-- The one command of a bank of only 0 and 0xFF that is not all 0 is `ON` for its 0xFF channels; the channels at 0
get no command (R122, R132). -/
def Obligations.OnOffBankIsOneOn : Prop :=
  ∀ (par : Params) (src old : Nat → Byte) (force : Bool) (p : PassSpec) (b : Nat),
    (∀ v ∈ bankValues src p b, v = 0x00 ∨ v = 0xFF) → 0xFF ∈ bankValues src p b →
    bankCommands par p.unit (BitVec.ofNat 6 b) (bankOf src old force p b) =
      [genOn p.unit (BitVec.ofNat 6 b) (maskOf 0xFF (bankValues src p b))] ∧
    ∀ k, (maskOf 0xFF (bankValues src p b)).getLsbD k = true ↔ (bankValues src p b)[k]? = some 0xFF

/-- The commands of a bank in colour mode: the zero group, the full-on group, then the other values in the order of
their first channel (R119, R121, R122, R123). -/
def Obligations.ColourBankCommandOrder : Prop :=
  ∀ (par : Params) (src old : Nat → Byte) (force : Bool) (p : PassSpec) (b : Nat),
    (∃ v ∈ bankValues src p b, v ≠ 0x00 ∧ v ≠ 0xFF) →
    bankCommands par p.unit (BitVec.ofNat 6 b) (bankOf src old force p b) =
      (if 0x00 ∈ bankValues src p b then
        [genSet p.unit (BitVec.ofNat 6 b) (wireValue par 0x00) (maskOf 0x00 (bankValues src p b))] else []) ++
      (if 0xFF ∈ bankValues src p b then
        [genOn p.unit (BitVec.ofNat 6 b) (maskOf 0xFF (bankValues src p b))] else []) ++
      ((distinct (bankValues src p b)).filter isMid).map
        (fun v => genSet p.unit (BitVec.ofNat 6 b) (wireValue par v) (maskOf v (bankValues src p b)))

/-- Whatever way a `FRAME` goes, it does not touch `CFG`, `TOTAL`, `OCC`, the staged table or the parameters, and
raises no `Heartbeat` and no `Settle` (R130). -/
def Obligations.FrameLeavesConfigurationAlone : Prop :=
  ∀ s t : State, exec .frame s = .next t →
    t.par = s.par ∧ t.cfg = s.cfg ∧ t.total = s.total ∧ t.occ = s.occ ∧ t.staged = s.staged ∧
    t.ports = s.ports ∧ t.pending = s.pending ∧ t.settleTimer = s.settleTimer ∧
    ∃ evs, t.trace = s.trace ++ evs ∧ Event.heartbeat ∉ evs ∧ Event.settle ∉ evs

/-- A `FRAME` that runs to its end clears `FORCE`; one that is skipped or faulted leaves it (R125). -/
def Obligations.FrameClearsForceAtItsEnd : Prop :=
  ∀ s t : State, exec .frame s = .next t →
    ∃ (evs : List Event) (st : Status), t.trace = s.trace ++ evs ++ [.done st] ∧
      (st = .done → t.force = false) ∧ (st ≠ .done → t.force = s.force)

/-- With no controller, a `FRAME` that passes its guards does nothing but clear `FORCE`, and an `ALLOFF` that passes
its guards gives the heartbeat and the settle wait (R201). -/
def Obligations.EmptyTableOperations : Prop :=
  ∀ s : State, s.cfg = [] →
    (FrameRuns s → ∃ t, exec .frame s = .next t ∧
      t = { s with force := false, trace := s.trace ++ [.done .done], busy := false, freeCount := t.freeCount }) ∧
    (AllOffRuns s → ∃ t, exec .alloff s = .next t ∧ t.trace = s.trace ++ [.heartbeat, .settle, .done .done])

/-! `ALLOFF`. -/

/-- The guards of `ALLOFF`: the fault lock, then not ready, with no output but the status; past them, over a legal
configuration, it runs to its end whatever `tx_empty` is (R171). -/
def Obligations.AllOffGuards : Prop :=
  ∀ s : State,
    (s.faultReg ≠ 0 → exec .alloff s = .next { s with trace := s.trace ++ [.done .faulted], busy := false }) ∧
    (s.faultReg = 0 → s.ports.ready = false →
      exec .alloff s = .next { s with trace := s.trace ++ [.done .skipNotReady], busy := false }) ∧
    (AllOffRuns s →
      ∃ (t : State) (evs : List Event), exec .alloff s = .next t ∧ t.trace = s.trace ++ evs ++ [.done .done] ∧
        Event.heartbeat ∈ evs ∧ Event.log .backpressure ∉ evs)

/-- `ALLOFF` over a legal configuration: one write for each pass that has a bank, then `Heartbeat`, `Settle`,
`Done(DONE)` once, whatever `tx_empty` is; the history, `FORCE` and the rest keep their values. The write of a pass of
`nb` banks decodes to `OFF` of bank `nb - 1` down to `OFF` of bank 0 for the pass's unit, and the terminator, and its
length is that of R173 (R170 to R176). -/
def Obligations.AllOffSwitchesEveryPassOff : Prop :=
  (∀ s : State, AllOffRuns s →
    ∃ t, exec .alloff s = .next t ∧
      t.trace = s.trace ++ (layout 0 s.cfg).flatMap offEvents ++ [.heartbeat, .settle, .done .done] ∧
      t = { s with cmdbuf := t.cmdbuf, trace := t.trace, busy := false, settleTimer := 0 } ∧
      ∀ p ∈ layout 0 s.cfg, unitOk p.unit = true ∧ p.nb ≤ 64) ∧
  ∀ p : PassSpec, unitOk p.unit = true → p.nb ≤ 64 →
    (p.nb = 0 → offEvents p = []) ∧
    (0 < p.nb → ∃ bytes : List Byte, offEvents p = [.txWrite bytes] ∧
      decodeWrite bytes =
        .ok ((List.range p.nb).map (fun k => Record.off p.unit (BitVec.ofNat 6 (p.nb - 1 - k))) ++ [.fin]) ∧
      bytes.length = 4 * (p.nb - 1) + 3 + 2)

/-- `ALLOFF` touches no persistent state, whichever way it goes; `FAULT` too is left alone where the configuration is
legal, as it is whenever `FAULT` is 0 (R176). -/
def Obligations.AllOffTouchesNoPersistentState : Prop :=
  ∀ s t : State, exec .alloff s = .next t →
    t.cfg = s.cfg ∧ t.last = s.last ∧ t.force = s.force ∧ t.total = s.total ∧ t.occ = s.occ ∧
    (cfgLegal s.cfg ∨ s.faultReg ≠ 0 → t.faultReg = s.faultReg)

/-- Stale history: a `FRAME`, an `ALLOFF`, and again a `FRAME` with the same values at every channel of the passes
writes nothing, although the lamps were told to go dark (R176, R209). -/
def Obligations.SameFrameAfterAllOffWritesNothing : Prop :=
  ∀ s t u : State, FrameRuns s → s.last.wf → exec .frame s = .next t → exec .alloff t = .next u →
    (∀ p ∈ framePasses s, ∀ a, p.holds a → frameSrc u a = frameSrc s a) →
    ∃ v, exec .frame u = .next v ∧ v.trace = u.trace ++ [.done .done] ∧ v.last = u.last

/-- A Legacy controller of 33 to 48 channels: three writes of one `OFFB0` and the terminator to three consecutive
units, then the heartbeat and the settle wait once (R177). -/
def Obligations.AllOffLegacyThreeBanks : Prop :=
  ∀ (s : State) (d : Descriptor), s.faultReg = 0 → s.ports.ready = true → s.cfg = [d] →
    pixiePorts d.dtype = none → d.dtype ≠ .malformed → d.amode = .legacy →
    33 ≤ d.chanCount → d.chanCount ≤ 48 →
    ∃ t, exec .alloff s = .next t ∧
      t.trace = s.trace ++
        [.txWrite [0x00, d.unitId, 0x41, 0x00, 0x00], .txWrite [0x00, d.unitId + 1, 0x41, 0x00, 0x00],
         .txWrite [0x00, d.unitId + 2, 0x41, 0x00, 0x00], .heartbeat, .settle, .done .done]

/-! The machine. -/

/-- A request accepted while `busy = 0` runs the instruction its `op_code` decodes to, on the state with the input
levels sampled and `busy` raised (R27, R80). -/
def Obligations.StepRunsRequestedOperation : Prop :=
  ∀ (s : State) (code : BitVec 2) (p : Ports) (q : List Stimulus) (i : Instr),
    s.pending = .op code p :: q → s.busy = false → decode (.port code) = .ok (i, []) →
    step s = exec i { s with pending := q, ports := p, busy := true }

/-- Presented wire bytes run the command they decode to, one command a step, and what is left of them stays next in
line. The spec gives wire commands no port: all of this is the model's choice (log 1). -/
def Obligations.StepRunsPresentedCommand : Prop :=
  ∀ (s : State) (bytes rest : List Byte) (q : List Stimulus) (i : Instr),
    s.pending = .wire bytes :: q → decode (.wire bytes) = .ok (i, rest) →
    step s = exec i { s with pending := (if rest = [] then q else .wire rest :: q) }

/-- A request while `busy = 1` is ignored, and with nothing to do the block stays as it is (R27, R34; log 18). -/
def Obligations.StepIgnoresRequestsWhileBusy : Prop :=
  (∀ s : State, s.pending = [] → step s = .next s) ∧
  ∀ (s : State) (code : BitVec 2) (p : Ports) (q : List Stimulus), s.pending = .op code p :: q →
    s.busy = true → step s = .next { s with pending := q }

/-- The invariant holds at reset. -/
def Obligations.InvariantHoldsAtReset : Prop := BlockInv State.reset

/-- Every step keeps the invariant. -/
def Obligations.InvariantKeptByEveryStep : Prop :=
  ∀ s t : State, BlockInv s → step s = .next t → BlockInv t

/-- An accepted operation that does not stop ends with exactly one `Done`, the last of its events, and `busy` falls
(R32, R35, R186). -/
def Obligations.OperationEndsWithOneDone : Prop :=
  ∀ (s t : State) (code : BitVec 2) (p : Ports) (q : List Stimulus),
    s.pending = .op code p :: q → s.busy = false → step s = .next t →
    t.busy = false ∧
    ∃ (evs : List Event) (st : Status), t.trace = s.trace ++ evs ++ [.done st] ∧ ∀ x, Event.done x ∉ evs

/-- No step takes back an output event, and no step changes the parameters (R5, R184 (3)). -/
def Obligations.TraceOnlyGrows : Prop :=
  ∀ s t : State, step s = .next t → t.par = s.par ∧ ∃ evs, t.trace = s.trace ++ evs

/-- Under the invariant the machine never faults, and answers a next state on every act of the host other than wire
bytes; in every state a step refuses only where the decoder says `invalid`, with the decoder's reason, and answers a
next state on every valid command (R73, R74, U18; the model's stops are its choice, logs 12 and 14). -/
def Obligations.StopsOnlyOnInvalidBytes : Prop :=
  (∀ s : State, BlockInv s → nextIsHostAct s = true → ∃ t, step s = .next t) ∧
  (∀ (s : State) (r : Refusal), step s = .refused r →
    ∃ bytes q e, s.pending = .wire bytes :: q ∧ decode (.wire bytes) = .error e ∧ r = .invalidEncoding e) ∧
  (∀ (s : State) (r : Fault), BlockInv s → step s ≠ .fault r) ∧
  (∀ (s : State) (bytes rest : List Byte) (q : List Stimulus) (i : Instr), s.pending = .wire bytes :: q →
    decode (.wire bytes) = .ok (i, rest) → ∃ t, step s = .next t)

/-- `FAULT` is sticky: while it is not 0, only `INIT` and reset change it (R15, R184 (1), R189). -/
def Obligations.FaultStaysUntilInitOrReset : Prop :=
  ∀ s t : State, s.faultReg ≠ 0 → nextReconfigures s = false → step s = .next t → t.faultReg = s.faultReg

/-- Only `INIT` and reset write `CFG`, `TOTAL` and `OCC` (R11, R17, R56, R202). -/
def Obligations.ConfigurationChangesOnlyByInit : Prop :=
  ∀ s t : State, nextReconfigures s = false → step s = .next t →
    t.cfg = s.cfg ∧ t.total = s.total ∧ t.occ = s.occ

/-- Only `FRAME`, `INIT` and reset write the history and `FORCE` (R13, R14, R42). -/
def Obligations.HistoryChangesOnlyByFrameOrInit : Prop :=
  ∀ s t : State, nextReconfigures s = false → nextIsFrame s = false → step s = .next t →
    t.last = s.last ∧ t.force = s.force
end

