-- ==== Sys2Proof/Laws/Memory.lean ====
section
/-! SUPPORT. The laws of sparse tables and of the history memory: read after write, and the canonical form is kept. -/

namespace Sys2Proof.Machine

section Table

variable {α : Type} {dflt : α}

theorem Sparse.wf_nil : Sparse.wf dflt ([] : List (Nat × α)) := by simp [Sparse.wf]

theorem Sparse.wf_cons {c : Nat × α} {m : List (Nat × α)} :
    Sparse.wf dflt (c :: m) ↔ (∀ d ∈ m, c.1 < d.1) ∧ c.2 ≠ dflt ∧ Sparse.wf dflt m := by
  simp only [Sparse.wf, List.pairwise_cons, List.mem_cons, forall_eq_or_imp]
  tauto

/-- An index below every listed one is unlisted. -/
theorem Sparse.get_of_lt {m : List (Nat × α)} {a : Nat} (h : ∀ d ∈ m, a < d.1) :
    Sparse.get dflt m a = dflt := by
  induction m with
  | nil => rfl
  | cons c m ih =>
    have hc := h c (by simp)
    rw [Sparse.get, if_neg (by omega)]
    exact ih fun d hd => h d (by simp [hd])

variable [DecidableEq α]

/-- Every index a write leaves listed was listed before or is the one written. -/
theorem Sparse.mem_put {m : List (Nat × α)} {a : Nat} {v : α} {c : Nat × α}
    (h : c ∈ Sparse.put dflt m a v) : c ∈ m ∨ c = (a, v) ∧ v ≠ dflt := by
  induction m with
  | nil =>
    simp only [Sparse.put] at h
    split at h <;> simp_all
  | cons d m ih =>
    simp only [Sparse.put] at h
    split at h
    · split at h <;> simp_all
      tauto
    · split at h
      · split at h <;> simp_all
        tauto
      · rcases List.mem_cons.1 h with h | h
        · simp [h]
        · rcases ih h with h | h <;> simp [h]

/-- A write keeps the canonical form. -/
theorem Sparse.wf_put {m : List (Nat × α)} (a : Nat) (v : α) (h : Sparse.wf dflt m) :
    Sparse.wf dflt (Sparse.put dflt m a v) := by
  induction m with
  | nil => simp only [Sparse.put]; split <;> simp_all [Sparse.wf]
  | cons c m ih =>
    rw [Sparse.wf_cons] at h
    obtain ⟨hlt, hne, hm⟩ := h
    simp only [Sparse.put]
    split
    · rename_i hac
      split
      · exact Sparse.wf_cons.2 ⟨hlt, hne, hm⟩
      · rename_i hv
        refine Sparse.wf_cons.2 ⟨?_, hv, Sparse.wf_cons.2 ⟨hlt, hne, hm⟩⟩
        intro d hd
        rcases List.mem_cons.1 hd with rfl | hd
        · exact hac
        · exact Nat.lt_trans hac (hlt d hd)
    · split
      · rename_i hac
        split
        · exact hm
        · rename_i hv
          exact Sparse.wf_cons.2 ⟨fun d hd => by simpa [hac] using hlt d hd, hv, hm⟩
      · refine Sparse.wf_cons.2 ⟨?_, hne, ih hm⟩
        intro d hd
        rcases Sparse.mem_put hd with hd | ⟨rfl, -⟩
        · exact hlt d hd
        · simp only; omega

/-- Reading after a write: the written index gives the value, every other what it gave before. -/
theorem Sparse.get_put {m : List (Nat × α)} (a b : Nat) (v : α) (h : Sparse.wf dflt m) :
    Sparse.get dflt (Sparse.put dflt m a v) b = if b = a then v else Sparse.get dflt m b := by
  induction m with
  | nil =>
    simp only [Sparse.put, Sparse.get]
    split <;> split <;> simp_all [Sparse.get, eq_comm]
  | cons c m ih =>
    rw [Sparse.wf_cons] at h
    obtain ⟨hlt, hne, hm⟩ := h
    have hget : ∀ x, x ≤ c.1 → Sparse.get dflt m x = dflt := fun x hx =>
      Sparse.get_of_lt fun d hd => Nat.lt_of_le_of_lt hx (hlt d hd)
    simp only [Sparse.put]
    split
    · rename_i hac
      split
      · rename_i hv
        split
        · rename_i hb
          subst hb
          rw [Sparse.get, if_neg (by omega), hget b (by omega), hv]
        · rfl
      · simp only [Sparse.get, eq_comm (a := b)]
    · split
      · rename_i hac
        subst hac
        split
        · rename_i hv
          split
          · rename_i hb
            subst hb
            rw [hget _ (Nat.le_refl _), hv]
          · rename_i hb
            rw [Sparse.get, if_neg (fun e => hb e.symm)]
        · simp only [Sparse.get, eq_comm (a := b)]
          split <;> rfl
      · rename_i h1 h2
        simp only [Sparse.get, ih hm]
        split
        · split
          · omega
          · rfl
        · rfl

end Table

theorem Memory.wf_empty : Memory.wf [] := Sparse.wf_nil

/-- A write to the history keeps the canonical form. -/
theorem Memory.wf_write {m : Memory} (a : Nat) (v : Byte) (h : m.wf) : (m.write a v).wf := Sparse.wf_put a v h

/-- The empty history reads the sentinel everywhere (R13, R34). -/
@[simp] theorem Memory.read_empty (a : Nat) : Memory.read [] a = Config.lastReset := rfl

/-- The history after reset has the canonical form. -/
theorem reset_last_wf : State.reset.last.wf := Memory.wf_empty

/-- Reading the history after a write (R42). -/
theorem Memory.read_write {m : Memory} (a b : Nat) (v : Byte) (h : m.wf) :
    (m.write a v).read b = if b = a then v else m.read b := Sparse.get_put a b v h

/-- A write lists no address but its own. -/
theorem Memory.mem_write {m : Memory} {a : Nat} {v : Byte} {c : Host.Cell} (h : c ∈ m.write a v) :
    c ∈ m ∨ c.1 = a := by
  rcases Sparse.mem_put h with h | ⟨rfl, -⟩
  · exact .inl h
  · exact .inr rfl

/-- Two canonical histories that read alike are equal. -/
theorem Memory.ext_read {m n : Memory} (hm : m.wf) (hn : n.wf) (h : ∀ a, m.read a = n.read a) : m = n := by
  induction m generalizing n with
  | nil =>
    cases n with
    | nil => rfl
    | cons c n =>
      have h1 := h c.1
      rw [Memory.wf, Sparse.wf_cons] at hn
      simp only [Memory.read, Sparse.get, if_true] at h1
      exact absurd h1.symm hn.2.1
  | cons c m ih =>
    rw [Memory.wf, Sparse.wf_cons] at hm
    cases n with
    | nil =>
      have h1 := h c.1
      simp only [Memory.read, Sparse.get, if_true] at h1
      exact absurd h1 hm.2.1
    | cons d n =>
      rw [Memory.wf, Sparse.wf_cons] at hn
      have low : ∀ {c : Host.Cell} {m : Memory}, (∀ e ∈ m, c.1 < e.1) → ∀ x ≤ c.1,
          Sparse.get Config.lastReset m x = Config.lastReset := fun hlt x hx =>
        Sparse.get_of_lt fun e he => Nat.lt_of_le_of_lt hx (hlt e he)
      have hcd : c.1 = d.1 := by
        rcases Nat.lt_trichotomy c.1 d.1 with hlt | heq | hgt
        · have h1 := h c.1
          simp only [Memory.read, Sparse.get, if_true] at h1
          rw [if_neg (by omega), low hn.1 _ (by omega)] at h1
          exact absurd h1 hm.2.1
        · exact heq
        · have h1 := h d.1
          simp only [Memory.read, Sparse.get, if_true] at h1
          rw [if_neg (by omega), low hm.1 _ (by omega)] at h1
          exact absurd h1.symm hn.2.1
      have hv : c.2 = d.2 := by
        have h1 := h c.1
        simpa [Memory.read, Sparse.get, hcd] using h1
      have hmn : m = n := by
        refine ih hm.2.2 hn.2.2 fun a => ?_
        have h1 := h a
        simp only [Memory.read, Sparse.get] at h1 ⊢
        by_cases ha : c.1 = a
        · rw [low hm.1 a (by omega), low hn.1 a (by omega)]
        · rwa [if_neg ha, if_neg (by omega)] at h1
      rw [hmn, Prod.ext hcd hv]

end Sys2Proof.Machine
end

