-- ==== Sys2Proof/Laws/State.lean ====
section
/-! SUPPORT. One lemma per field per named update of the state, so that no proof unfolds a record update. -/

namespace Sys2Proof.Machine

variable (s : State)

/-! Raising an event (R35). -/

@[simp] theorem output_par (e : Event) : (output e s).par = s.par := rfl
@[simp] theorem output_cfg (e : Event) : (output e s).cfg = s.cfg := rfl
@[simp] theorem output_last (e : Event) : (output e s).last = s.last := rfl
@[simp] theorem output_force (e : Event) : (output e s).force = s.force := rfl
@[simp] theorem output_faultReg (e : Event) : (output e s).faultReg = s.faultReg := rfl
@[simp] theorem output_total (e : Event) : (output e s).total = s.total := rfl
@[simp] theorem output_occ (e : Event) : (output e s).occ = s.occ := rfl
@[simp] theorem output_cmdbuf (e : Event) : (output e s).cmdbuf = s.cmdbuf := rfl
@[simp] theorem output_busy (e : Event) : (output e s).busy = s.busy := rfl
@[simp] theorem output_settleTimer (e : Event) : (output e s).settleTimer = s.settleTimer := rfl
@[simp] theorem output_staged (e : Event) : (output e s).staged = s.staged := rfl
@[simp] theorem output_ports (e : Event) : (output e s).ports = s.ports := rfl
@[simp] theorem output_pending (e : Event) : (output e s).pending = s.pending := rfl
@[simp] theorem output_trace (e : Event) : (output e s).trace = s.trace ++ [e] := rfl
@[simp] theorem output_freeCount (e : Event) : (output e s).freeCount = s.freeCount := rfl

/-! `Done(status)` (R186). -/

@[simp] theorem finish_par (st : Status) : (finish st s).par = s.par := rfl
@[simp] theorem finish_cfg (st : Status) : (finish st s).cfg = s.cfg := rfl
@[simp] theorem finish_last (st : Status) : (finish st s).last = s.last := rfl
@[simp] theorem finish_force (st : Status) : (finish st s).force = s.force := rfl
@[simp] theorem finish_faultReg (st : Status) : (finish st s).faultReg = s.faultReg := rfl
@[simp] theorem finish_total (st : Status) : (finish st s).total = s.total := rfl
@[simp] theorem finish_occ (st : Status) : (finish st s).occ = s.occ := rfl
@[simp] theorem finish_cmdbuf (st : Status) : (finish st s).cmdbuf = s.cmdbuf := rfl
@[simp] theorem finish_busy (st : Status) : (finish st s).busy = false := rfl
@[simp] theorem finish_settleTimer (st : Status) : (finish st s).settleTimer = s.settleTimer := rfl
@[simp] theorem finish_staged (st : Status) : (finish st s).staged = s.staged := rfl
@[simp] theorem finish_ports (st : Status) : (finish st s).ports = s.ports := rfl
@[simp] theorem finish_pending (st : Status) : (finish st s).pending = s.pending := rfl
@[simp] theorem finish_trace (st : Status) : (finish st s).trace = s.trace ++ [.done st] := rfl
@[simp] theorem finish_freeCount (st : Status) : (finish st s).freeCount = s.freeCount := rfl

/-! Fault entry (R184). -/

@[simp] theorem raise_par (c : Cause) : (raise c s).par = s.par := rfl
@[simp] theorem raise_cfg (c : Cause) : (raise c s).cfg = s.cfg := rfl
@[simp] theorem raise_last (c : Cause) : (raise c s).last = s.last := rfl
@[simp] theorem raise_force (c : Cause) : (raise c s).force = s.force := rfl
@[simp] theorem raise_faultReg (c : Cause) : (raise c s).faultReg = if s.faultReg = 0 then c.code else s.faultReg := rfl
@[simp] theorem raise_total (c : Cause) : (raise c s).total = s.total := rfl
@[simp] theorem raise_occ (c : Cause) : (raise c s).occ = s.occ := rfl
@[simp] theorem raise_cmdbuf (c : Cause) : (raise c s).cmdbuf = [] := rfl
@[simp] theorem raise_busy (c : Cause) : (raise c s).busy = false := rfl
@[simp] theorem raise_settleTimer (c : Cause) : (raise c s).settleTimer = s.settleTimer := rfl
@[simp] theorem raise_staged (c : Cause) : (raise c s).staged = s.staged := rfl
@[simp] theorem raise_ports (c : Cause) : (raise c s).ports = s.ports := rfl
@[simp] theorem raise_pending (c : Cause) : (raise c s).pending = s.pending := rfl
@[simp] theorem raise_trace (c : Cause) : (raise c s).trace = s.trace ++ [.done .faulted] := rfl
@[simp] theorem raise_freeCount (c : Cause) : (raise c s).freeCount = s.freeCount := rfl

/-! Clearing `FAULT` (R189). -/

@[simp] theorem clearFault_par : (clearFault s).par = s.par := rfl
@[simp] theorem clearFault_cfg : (clearFault s).cfg = s.cfg := rfl
@[simp] theorem clearFault_last : (clearFault s).last = s.last := rfl
@[simp] theorem clearFault_force : (clearFault s).force = s.force := rfl
@[simp] theorem clearFault_faultReg : (clearFault s).faultReg = 0 := rfl
@[simp] theorem clearFault_total : (clearFault s).total = s.total := rfl
@[simp] theorem clearFault_occ : (clearFault s).occ = s.occ := rfl
@[simp] theorem clearFault_cmdbuf : (clearFault s).cmdbuf = s.cmdbuf := rfl
@[simp] theorem clearFault_busy : (clearFault s).busy = s.busy := rfl
@[simp] theorem clearFault_settleTimer : (clearFault s).settleTimer = s.settleTimer := rfl
@[simp] theorem clearFault_staged : (clearFault s).staged = s.staged := rfl
@[simp] theorem clearFault_ports : (clearFault s).ports = s.ports := rfl
@[simp] theorem clearFault_pending : (clearFault s).pending = s.pending := rfl
@[simp] theorem clearFault_trace : (clearFault s).trace = s.trace := rfl
@[simp] theorem clearFault_freeCount : (clearFault s).freeCount = s.freeCount := rfl

/-! `WRIDX <- 0` (R21). -/

@[simp] theorem clearBuf_par : (clearBuf s).par = s.par := rfl
@[simp] theorem clearBuf_cfg : (clearBuf s).cfg = s.cfg := rfl
@[simp] theorem clearBuf_last : (clearBuf s).last = s.last := rfl
@[simp] theorem clearBuf_force : (clearBuf s).force = s.force := rfl
@[simp] theorem clearBuf_faultReg : (clearBuf s).faultReg = s.faultReg := rfl
@[simp] theorem clearBuf_total : (clearBuf s).total = s.total := rfl
@[simp] theorem clearBuf_occ : (clearBuf s).occ = s.occ := rfl
@[simp] theorem clearBuf_cmdbuf : (clearBuf s).cmdbuf = [] := rfl
@[simp] theorem clearBuf_busy : (clearBuf s).busy = s.busy := rfl
@[simp] theorem clearBuf_settleTimer : (clearBuf s).settleTimer = s.settleTimer := rfl
@[simp] theorem clearBuf_staged : (clearBuf s).staged = s.staged := rfl
@[simp] theorem clearBuf_ports : (clearBuf s).ports = s.ports := rfl
@[simp] theorem clearBuf_pending : (clearBuf s).pending = s.pending := rfl
@[simp] theorem clearBuf_trace : (clearBuf s).trace = s.trace := rfl
@[simp] theorem clearBuf_freeCount : (clearBuf s).freeCount = s.freeCount := rfl

/-! `TxWrite` (R30). -/

@[simp] theorem txWrite_par : (txWrite s).par = s.par := rfl
@[simp] theorem txWrite_cfg : (txWrite s).cfg = s.cfg := rfl
@[simp] theorem txWrite_last : (txWrite s).last = s.last := rfl
@[simp] theorem txWrite_force : (txWrite s).force = s.force := rfl
@[simp] theorem txWrite_faultReg : (txWrite s).faultReg = s.faultReg := rfl
@[simp] theorem txWrite_total : (txWrite s).total = s.total := rfl
@[simp] theorem txWrite_occ : (txWrite s).occ = s.occ := rfl
@[simp] theorem txWrite_cmdbuf : (txWrite s).cmdbuf = [] := rfl
@[simp] theorem txWrite_busy : (txWrite s).busy = s.busy := rfl
@[simp] theorem txWrite_settleTimer : (txWrite s).settleTimer = s.settleTimer := rfl
@[simp] theorem txWrite_staged : (txWrite s).staged = s.staged := rfl
@[simp] theorem txWrite_ports : (txWrite s).ports = s.ports := rfl
@[simp] theorem txWrite_pending : (txWrite s).pending = s.pending := rfl
@[simp] theorem txWrite_trace : (txWrite s).trace = s.trace ++ [.txWrite s.cmdbuf] := rfl
@[simp] theorem txWrite_freeCount : (txWrite s).freeCount = s.freeCount := rfl

/-! Acceptance (R27). -/

@[simp] theorem accept_par (p : Ports) : (accept p s).par = s.par := rfl
@[simp] theorem accept_cfg (p : Ports) : (accept p s).cfg = s.cfg := rfl
@[simp] theorem accept_last (p : Ports) : (accept p s).last = s.last := rfl
@[simp] theorem accept_force (p : Ports) : (accept p s).force = s.force := rfl
@[simp] theorem accept_faultReg (p : Ports) : (accept p s).faultReg = s.faultReg := rfl
@[simp] theorem accept_total (p : Ports) : (accept p s).total = s.total := rfl
@[simp] theorem accept_occ (p : Ports) : (accept p s).occ = s.occ := rfl
@[simp] theorem accept_cmdbuf (p : Ports) : (accept p s).cmdbuf = s.cmdbuf := rfl
@[simp] theorem accept_busy (p : Ports) : (accept p s).busy = true := rfl
@[simp] theorem accept_settleTimer (p : Ports) : (accept p s).settleTimer = s.settleTimer := rfl
@[simp] theorem accept_staged (p : Ports) : (accept p s).staged = s.staged := rfl
@[simp] theorem accept_ports (p : Ports) : (accept p s).ports = p := rfl
@[simp] theorem accept_pending (p : Ports) : (accept p s).pending = s.pending := rfl
@[simp] theorem accept_trace (p : Ports) : (accept p s).trace = s.trace := rfl
@[simp] theorem accept_freeCount (p : Ports) : (accept p s).freeCount = s.freeCount := rfl

/-! The staging port (R32). -/

@[simp] theorem stageWrite_par (i w : Nat) : (stageWrite i w s).par = s.par := rfl
@[simp] theorem stageWrite_cfg (i w : Nat) : (stageWrite i w s).cfg = s.cfg := rfl
@[simp] theorem stageWrite_last (i w : Nat) : (stageWrite i w s).last = s.last := rfl
@[simp] theorem stageWrite_force (i w : Nat) : (stageWrite i w s).force = s.force := rfl
@[simp] theorem stageWrite_faultReg (i w : Nat) : (stageWrite i w s).faultReg = s.faultReg := rfl
@[simp] theorem stageWrite_total (i w : Nat) : (stageWrite i w s).total = s.total := rfl
@[simp] theorem stageWrite_occ (i w : Nat) : (stageWrite i w s).occ = s.occ := rfl
@[simp] theorem stageWrite_cmdbuf (i w : Nat) : (stageWrite i w s).cmdbuf = s.cmdbuf := rfl
@[simp] theorem stageWrite_busy (i w : Nat) : (stageWrite i w s).busy = s.busy := rfl
@[simp] theorem stageWrite_settleTimer (i w : Nat) : (stageWrite i w s).settleTimer = s.settleTimer := rfl
@[simp] theorem stageWrite_staged (i w : Nat) : (stageWrite i w s).staged = Sparse.put Descriptor.zero s.staged i (unpackDescriptor s.par.chW w) := rfl
@[simp] theorem stageWrite_ports (i w : Nat) : (stageWrite i w s).ports = s.ports := rfl
@[simp] theorem stageWrite_pending (i w : Nat) : (stageWrite i w s).pending = s.pending := rfl
@[simp] theorem stageWrite_trace (i w : Nat) : (stageWrite i w s).trace = s.trace := rfl
@[simp] theorem stageWrite_freeCount (i w : Nat) : (stageWrite i w s).freeCount = s.freeCount := rfl

/-! Reset by `rst` (R200). -/

@[simp] theorem hardReset_par : (hardReset s).par = s.par := rfl
@[simp] theorem hardReset_cfg : (hardReset s).cfg = [] := rfl
@[simp] theorem hardReset_last : (hardReset s).last = [] := rfl
@[simp] theorem hardReset_force : (hardReset s).force = true := rfl
@[simp] theorem hardReset_faultReg : (hardReset s).faultReg = 0 := rfl
@[simp] theorem hardReset_total : (hardReset s).total = 0 := rfl
@[simp] theorem hardReset_occ : (hardReset s).occ = 1 := rfl
@[simp] theorem hardReset_cmdbuf : (hardReset s).cmdbuf = [] := rfl
@[simp] theorem hardReset_busy : (hardReset s).busy = false := rfl
@[simp] theorem hardReset_settleTimer : (hardReset s).settleTimer = 0 := rfl
@[simp] theorem hardReset_staged : (hardReset s).staged = s.staged := rfl
@[simp] theorem hardReset_ports : (hardReset s).ports = s.ports := rfl
@[simp] theorem hardReset_pending : (hardReset s).pending = s.pending := rfl
@[simp] theorem hardReset_trace : (hardReset s).trace = s.trace := rfl
@[simp] theorem hardReset_freeCount : (hardReset s).freeCount = s.freeCount := rfl

/-! Starting the settle timer (R192). -/

@[simp] theorem startSettle_par : (startSettle s).par = s.par := rfl
@[simp] theorem startSettle_cfg : (startSettle s).cfg = s.cfg := rfl
@[simp] theorem startSettle_last : (startSettle s).last = s.last := rfl
@[simp] theorem startSettle_force : (startSettle s).force = s.force := rfl
@[simp] theorem startSettle_faultReg : (startSettle s).faultReg = s.faultReg := rfl
@[simp] theorem startSettle_total : (startSettle s).total = s.total := rfl
@[simp] theorem startSettle_occ : (startSettle s).occ = s.occ := rfl
@[simp] theorem startSettle_cmdbuf : (startSettle s).cmdbuf = s.cmdbuf := rfl
@[simp] theorem startSettle_busy : (startSettle s).busy = s.busy := rfl
@[simp] theorem startSettle_settleTimer : (startSettle s).settleTimer = s.par.settleDelay := rfl
@[simp] theorem startSettle_staged : (startSettle s).staged = s.staged := rfl
@[simp] theorem startSettle_ports : (startSettle s).ports = s.ports := rfl
@[simp] theorem startSettle_pending : (startSettle s).pending = s.pending := rfl
@[simp] theorem startSettle_trace : (startSettle s).trace = s.trace := rfl
@[simp] theorem startSettle_freeCount : (startSettle s).freeCount = s.freeCount := rfl

/-! The end of the settle wait (R175). -/

@[simp] theorem endSettle_par : (endSettle s).par = s.par := rfl
@[simp] theorem endSettle_cfg : (endSettle s).cfg = s.cfg := rfl
@[simp] theorem endSettle_last : (endSettle s).last = s.last := rfl
@[simp] theorem endSettle_force : (endSettle s).force = s.force := rfl
@[simp] theorem endSettle_faultReg : (endSettle s).faultReg = s.faultReg := rfl
@[simp] theorem endSettle_total : (endSettle s).total = s.total := rfl
@[simp] theorem endSettle_occ : (endSettle s).occ = s.occ := rfl
@[simp] theorem endSettle_cmdbuf : (endSettle s).cmdbuf = s.cmdbuf := rfl
@[simp] theorem endSettle_busy : (endSettle s).busy = s.busy := rfl
@[simp] theorem endSettle_settleTimer : (endSettle s).settleTimer = 0 := rfl
@[simp] theorem endSettle_staged : (endSettle s).staged = s.staged := rfl
@[simp] theorem endSettle_ports : (endSettle s).ports = s.ports := rfl
@[simp] theorem endSettle_pending : (endSettle s).pending = s.pending := rfl
@[simp] theorem endSettle_trace : (endSettle s).trace = s.trace ++ [.settle] := rfl
@[simp] theorem endSettle_freeCount : (endSettle s).freeCount = s.freeCount := rfl

/-! The start of a frame's body. -/

@[simp] theorem startFrame_par : (startFrame s).par = s.par := rfl
@[simp] theorem startFrame_cfg : (startFrame s).cfg = s.cfg := rfl
@[simp] theorem startFrame_last : (startFrame s).last = s.last := rfl
@[simp] theorem startFrame_force : (startFrame s).force = s.force := rfl
@[simp] theorem startFrame_faultReg : (startFrame s).faultReg = s.faultReg := rfl
@[simp] theorem startFrame_total : (startFrame s).total = s.total := rfl
@[simp] theorem startFrame_occ : (startFrame s).occ = s.occ := rfl
@[simp] theorem startFrame_cmdbuf : (startFrame s).cmdbuf = s.cmdbuf := rfl
@[simp] theorem startFrame_busy : (startFrame s).busy = s.busy := rfl
@[simp] theorem startFrame_settleTimer : (startFrame s).settleTimer = s.settleTimer := rfl
@[simp] theorem startFrame_staged : (startFrame s).staged = s.staged := rfl
@[simp] theorem startFrame_ports : (startFrame s).ports = s.ports := rfl
@[simp] theorem startFrame_pending : (startFrame s).pending = s.pending := rfl
@[simp] theorem startFrame_trace : (startFrame s).trace = s.trace := rfl
@[simp] theorem startFrame_freeCount : (startFrame s).freeCount = s.freeCount + 1 := rfl

/-! The end of a frame (R125). -/

@[simp] theorem endFrame_par : (endFrame s).par = s.par := rfl
@[simp] theorem endFrame_cfg : (endFrame s).cfg = s.cfg := rfl
@[simp] theorem endFrame_last : (endFrame s).last = s.last := rfl
@[simp] theorem endFrame_force : (endFrame s).force = false := rfl
@[simp] theorem endFrame_faultReg : (endFrame s).faultReg = s.faultReg := rfl
@[simp] theorem endFrame_total : (endFrame s).total = s.total := rfl
@[simp] theorem endFrame_occ : (endFrame s).occ = s.occ := rfl
@[simp] theorem endFrame_cmdbuf : (endFrame s).cmdbuf = s.cmdbuf := rfl
@[simp] theorem endFrame_busy : (endFrame s).busy = false := rfl
@[simp] theorem endFrame_settleTimer : (endFrame s).settleTimer = s.settleTimer := rfl
@[simp] theorem endFrame_staged : (endFrame s).staged = s.staged := rfl
@[simp] theorem endFrame_ports : (endFrame s).ports = s.ports := rfl
@[simp] theorem endFrame_pending : (endFrame s).pending = s.pending := rfl
@[simp] theorem endFrame_trace : (endFrame s).trace = s.trace ++ [.done .done] := rfl
@[simp] theorem endFrame_freeCount : (endFrame s).freeCount = s.freeCount := rfl

/-! The start of a pass and its grouping (R116). -/

@[simp] theorem beginPass_par (p : PassSpec) : (beginPass p s).par = s.par := rfl
@[simp] theorem beginPass_cfg (p : PassSpec) : (beginPass p s).cfg = s.cfg := rfl
@[simp] theorem beginPass_last (p : PassSpec) : (beginPass p s).last = (groupingOf s p).last := rfl
@[simp] theorem beginPass_force (p : PassSpec) : (beginPass p s).force = s.force := rfl
@[simp] theorem beginPass_faultReg (p : PassSpec) : (beginPass p s).faultReg = s.faultReg := rfl
@[simp] theorem beginPass_total (p : PassSpec) : (beginPass p s).total = s.total := rfl
@[simp] theorem beginPass_occ (p : PassSpec) : (beginPass p s).occ = s.occ := rfl
@[simp] theorem beginPass_cmdbuf (p : PassSpec) : (beginPass p s).cmdbuf = [] := rfl
@[simp] theorem beginPass_busy (p : PassSpec) : (beginPass p s).busy = s.busy := rfl
@[simp] theorem beginPass_settleTimer (p : PassSpec) : (beginPass p s).settleTimer = s.settleTimer := rfl
@[simp] theorem beginPass_staged (p : PassSpec) : (beginPass p s).staged = s.staged := rfl
@[simp] theorem beginPass_ports (p : PassSpec) : (beginPass p s).ports = s.ports := rfl
@[simp] theorem beginPass_pending (p : PassSpec) : (beginPass p s).pending = s.pending := rfl
@[simp] theorem beginPass_trace (p : PassSpec) : (beginPass p s).trace = s.trace := rfl
@[simp] theorem beginPass_freeCount (p : PassSpec) : (beginPass p s).freeCount = s.freeCount := rfl

/-! The latch of `INIT` (R202). -/

@[simp] theorem latchConfig_par : (latchConfig s).par = s.par := rfl
@[simp] theorem latchConfig_cfg : (latchConfig s).cfg = stagedTable s := rfl
@[simp] theorem latchConfig_last : (latchConfig s).last = [] := rfl
@[simp] theorem latchConfig_force : (latchConfig s).force = true := rfl
@[simp] theorem latchConfig_faultReg : (latchConfig s).faultReg = 0 := rfl
@[simp] theorem latchConfig_total : (latchConfig s).total = s.total := rfl
@[simp] theorem latchConfig_occ : (latchConfig s).occ = s.occ := rfl
@[simp] theorem latchConfig_cmdbuf : (latchConfig s).cmdbuf = s.cmdbuf := rfl
@[simp] theorem latchConfig_busy : (latchConfig s).busy = s.busy := rfl
@[simp] theorem latchConfig_settleTimer : (latchConfig s).settleTimer = s.settleTimer := rfl
@[simp] theorem latchConfig_staged : (latchConfig s).staged = s.staged := rfl
@[simp] theorem latchConfig_ports : (latchConfig s).ports = s.ports := rfl
@[simp] theorem latchConfig_pending : (latchConfig s).pending = s.pending := rfl
@[simp] theorem latchConfig_trace : (latchConfig s).trace = s.trace := rfl
@[simp] theorem latchConfig_freeCount : (latchConfig s).freeCount = s.freeCount := rfl

/-! `CALC_TOTAL` (R100). -/

@[simp] theorem calcTotal_par : (calcTotal s).par = s.par := rfl
@[simp] theorem calcTotal_cfg : (calcTotal s).cfg = s.cfg := rfl
@[simp] theorem calcTotal_last : (calcTotal s).last = s.last := rfl
@[simp] theorem calcTotal_force : (calcTotal s).force = s.force := rfl
@[simp] theorem calcTotal_faultReg : (calcTotal s).faultReg = s.faultReg := rfl
@[simp] theorem calcTotal_total : (calcTotal s).total = effTotal s.cfg := rfl
@[simp] theorem calcTotal_occ : (calcTotal s).occ = occupancy s.cfg := rfl
@[simp] theorem calcTotal_cmdbuf : (calcTotal s).cmdbuf = s.cmdbuf := rfl
@[simp] theorem calcTotal_busy : (calcTotal s).busy = s.busy := rfl
@[simp] theorem calcTotal_settleTimer : (calcTotal s).settleTimer = s.settleTimer := rfl
@[simp] theorem calcTotal_staged : (calcTotal s).staged = s.staged := rfl
@[simp] theorem calcTotal_ports : (calcTotal s).ports = s.ports := rfl
@[simp] theorem calcTotal_pending : (calcTotal s).pending = s.pending := rfl
@[simp] theorem calcTotal_trace : (calcTotal s).trace = s.trace := rfl
@[simp] theorem calcTotal_freeCount : (calcTotal s).freeCount = s.freeCount := rfl

/-! The unspecified `TOTAL` (R203). -/

@[simp] theorem loseTotal_par : (loseTotal s).par = s.par := rfl
@[simp] theorem loseTotal_cfg : (loseTotal s).cfg = s.cfg := rfl
@[simp] theorem loseTotal_last : (loseTotal s).last = s.last := rfl
@[simp] theorem loseTotal_force : (loseTotal s).force = s.force := rfl
@[simp] theorem loseTotal_faultReg : (loseTotal s).faultReg = s.faultReg := rfl
@[simp] theorem loseTotal_total : (loseTotal s).total = Config.freeTotal s.freeCount % 2 ^ (s.par.chW + 1) := rfl
@[simp] theorem loseTotal_occ : (loseTotal s).occ = s.occ := rfl
@[simp] theorem loseTotal_cmdbuf : (loseTotal s).cmdbuf = s.cmdbuf := rfl
@[simp] theorem loseTotal_busy : (loseTotal s).busy = s.busy := rfl
@[simp] theorem loseTotal_settleTimer : (loseTotal s).settleTimer = s.settleTimer := rfl
@[simp] theorem loseTotal_staged : (loseTotal s).staged = s.staged := rfl
@[simp] theorem loseTotal_ports : (loseTotal s).ports = s.ports := rfl
@[simp] theorem loseTotal_pending : (loseTotal s).pending = s.pending := rfl
@[simp] theorem loseTotal_trace : (loseTotal s).trace = s.trace := rfl
@[simp] theorem loseTotal_freeCount : (loseTotal s).freeCount = s.freeCount + 1 := rfl

end Sys2Proof.Machine
end

