-- ==== Sys2Proof/Laws/Ops.lean ====
section
/-! SUPPORT. What each shared operation can do: flows, `Emit`, the close of a pass, the wire-command meaning, the
fault entry. -/

namespace Sys2Proof.Machine

/-! Flows. -/

@[simp] theorem Flow.state_on (s : State) : (Flow.on s).state = s := rfl
@[simp] theorem Flow.state_ended (s : State) : (Flow.ended s).state = s := rfl
@[simp] theorem Flow.andThen_on (s : State) (f : State → Flow) : (Flow.on s).andThen f = f s := rfl
@[simp] theorem Flow.andThen_ended (s : State) (f : State → Flow) : (Flow.ended s).andThen f = .ended s := rfl

section RunEach

variable {α : Type} (f : α → State → Flow)

@[simp] theorem runEach_nil (s : State) : runEach f [] s = .on s := rfl

@[simp] theorem runEach_cons (a : α) (as : List α) (s : State) :
    runEach f (a :: as) s = (f a s).andThen (runEach f as) := rfl

theorem runEach_append (as bs : List α) (s : State) :
    runEach f (as ++ bs) s = (runEach f as s).andThen (runEach f bs) := by
  induction as generalizing s with
  | nil => rfl
  | cons a as ih =>
    simp only [List.cons_append, runEach_cons]
    cases f a s with
    | on t => simp [ih]
    | ended t => rfl

variable {f}

/-- A relation that every element's run keeps, run on or ended, the whole run keeps. -/
theorem runEach_rel {R : State → State → Prop} (hrefl : ∀ s, R s s)
    (htrans : ∀ {s t u}, R s t → R t u → R s u) (hf : ∀ a s, R s (f a s).state) (as : List α) (s : State) :
    R s (runEach f as s).state := by
  induction as generalizing s with
  | nil => exact hrefl s
  | cons a as ih =>
    have h := hf a s
    rw [runEach_cons]
    cases hx : f a s with
    | on t => rw [hx] at h; exact htrans h (ih t)
    | ended t => rw [hx] at h; exact h

/-- As `runEach_rel`, where only the elements of the list need keep the relation. -/
theorem runEach_rel_mem {R : State → State → Prop} (hrefl : ∀ s, R s s)
    (htrans : ∀ {s t u}, R s t → R t u → R s u) {as : List α} (hf : ∀ a ∈ as, ∀ s, R s (f a s).state)
    (s : State) : R s (runEach f as s).state := by
  induction as generalizing s with
  | nil => exact hrefl s
  | cons a as ih =>
    have h := hf a (by simp) s
    rw [runEach_cons]
    cases hx : f a s with
    | on t => rw [hx] at h; exact htrans h (ih (fun b hb => hf b (by simp [hb])) t)
    | ended t => rw [hx] at h; exact h

/-- What holds of every state at which a run may end holds of the state at which it ended: `P` along the way,
`Q` where a fault ended it. -/
theorem runEach_cases {P Q : State → Prop} {as : List α}
    (hf : ∀ a ∈ as, ∀ s, P s → match f a s with | .on t => P t | .ended t => Q t)
    (s : State) (hs : P s) : match runEach f as s with | .on t => P t | .ended t => Q t := by
  induction as generalizing s with
  | nil => exact hs
  | cons a as ih =>
    have h := hf a (by simp) s hs
    rw [runEach_cons]
    cases hx : f a s with
    | on t => rw [hx] at h; exact ih (fun b hb => hf b (by simp [hb])) t h
    | ended t => rw [hx] at h; exact h

end RunEach

/-! `Emit` and the close of a pass. -/

theorem emit_of_fits {bytes : List Byte} {s : State}
    (h : s.cmdbuf.length + bytes.length ≤ Config.cmdBufBytes) :
    emit bytes s = .on { s with cmdbuf := s.cmdbuf ++ bytes } := if_pos h

theorem emit_of_full {bytes : List Byte} {s : State}
    (h : Config.cmdBufBytes < s.cmdbuf.length + bytes.length) :
    emit bytes s = .ended (raise .capacity s) := if_neg (by omega)

/-- The fault entry drops the buffer, so what the buffer held does not matter to it. -/
@[simp] theorem raise_cmdbuf_update (c : Cause) (s : State) (b : List Byte) :
    raise c { s with cmdbuf := b } = raise c s := rfl

/-- Emitting a list of commands that fits stores all their bytes in order. -/
theorem emits_of_fits {cmds : List (List Byte)} {s : State}
    (h : s.cmdbuf.length + cmds.flatten.length ≤ Config.cmdBufBytes) :
    runEach emit cmds s = .on { s with cmdbuf := s.cmdbuf ++ cmds.flatten } := by
  induction cmds generalizing s with
  | nil => simp
  | cons c cmds ih =>
    simp only [List.flatten_cons, List.length_append] at h
    rw [runEach_cons, emit_of_fits (by omega), Flow.andThen_on, ih (by rw [List.length_append]; omega)]
    simp

/-- Emitting a list of commands that does not fit ends the operation with `CAPACITY` (R128, R184). -/
theorem emits_of_full {cmds : List (List Byte)} {s : State} (hs : s.cmdbuf.length ≤ Config.cmdBufBytes)
    (h : Config.cmdBufBytes < s.cmdbuf.length + cmds.flatten.length) :
    runEach emit cmds s = .ended (raise .capacity s) := by
  induction cmds generalizing s with
  | nil => simp at h; omega
  | cons c cmds ih =>
    simp only [List.flatten_cons, List.length_append] at h
    rw [runEach_cons]
    by_cases hc : s.cmdbuf.length + c.length ≤ Config.cmdBufBytes
    · rw [emit_of_fits hc, Flow.andThen_on, ih (by simpa using hc) (by rw [List.length_append]; omega), raise_cmdbuf_update]
    · rw [emit_of_full (by omega), Flow.andThen_ended]

theorem closePass_of_fits {s : State} (h : s.cmdbuf.length + 2 ≤ Config.cmdBufBytes) :
    closePass s = .on { s with
      trace := s.trace ++ [.txWrite (s.cmdbuf ++ terminator)], cmdbuf := [] } := by
  rw [closePass, emit_of_fits (by simpa [terminator] using h)]
  rfl

theorem closePass_of_full {s : State} (h : Config.cmdBufBytes < s.cmdbuf.length + 2) :
    closePass s = .ended (raise .capacity s) := by
  rw [closePass, emit_of_full (by simpa [terminator] using h), Flow.andThen_ended]

/-- Commands and terminator of one pass, from an empty buffer: one write if they fit, `CAPACITY` if not. -/
theorem emits_then_close (cmds : List (List Byte)) {s : State} (hs : s.cmdbuf = []) :
    (runEach emit cmds s).andThen closePass =
      if cmds.flatten.length + 2 ≤ Config.cmdBufBytes then
        .on { s with trace := s.trace ++ [.txWrite (cmds.flatten ++ terminator)] }
      else .ended (raise .capacity s) := by
  by_cases h : cmds.flatten.length ≤ Config.cmdBufBytes
  · rw [emits_of_fits (by simpa [hs] using h), Flow.andThen_on]
    split
    · rename_i h2
      rw [closePass_of_fits (by simpa [hs] using h2)]
      simp [hs]
    · rename_i h2
      rw [closePass_of_full (by simp [hs] at h2 ⊢; omega), raise_cmdbuf_update]
  · rw [emits_of_full (by simp [hs]) (by simpa [hs] using h), Flow.andThen_ended, if_neg (by omega)]

/-! The wire commands. -/

/-- A command none of whose checks objects goes through `Emit`. -/
theorem command_of_pass {checks : List (Option Refusal)} (h : ∀ c ∈ checks, c = none) (bytes : List Byte)
    (s : State) : command checks bytes s = .next (emit bytes s).state := by
  rw [command, List.findSome?_eq_none_iff.2 (by simpa using h)]

@[simp] theorem unitRefusal_of_ok {u : Byte} (h : unitOk u = true) : unitRefusal u = none := by
  simp [unitOk] at h
  simp [unitRefusal, h]

@[simp] theorem bankRefusal_of_ok {b : BankIx} (h : bankOk b = true) : bankRefusal b = none := by
  simp [bankOk] at h
  simp [bankRefusal, h]

@[simp] theorem maskRefusal_of_ok {m : Byte} (h : maskOk m = true) : maskRefusal m = none := by
  simp [maskOk] at h
  simp [maskRefusal, h]

theorem unitRefusal_of_bad {u : Byte} (h : unitOk u = false) : unitRefusal u = some .unitOutOfRange := by
  simp only [unitOk, Bool.and_eq_false_iff, bne_eq_false_iff_eq] at h
  rw [unitRefusal, if_pos h]

theorem bankRefusal_of_bad {b : BankIx} (h : bankOk b = false) : bankRefusal b = some .bankOutOfRange := by
  simp only [bankOk, bne_eq_false_iff_eq] at h
  simp [bankRefusal, h]

theorem maskRefusal_of_bad {m : Byte} (h : maskOk m = false) : maskRefusal m = some .zeroMask := by
  simp only [maskOk, bne_eq_false_iff_eq] at h
  simp [maskRefusal, h]

/-! The fault entry. -/

/-- From no fault, the fault entry records its cause (R184 (1)). -/
theorem raise_faultReg_of_clear {s : State} (h : s.faultReg = 0) (c : Cause) :
    (raise c s).faultReg = c.code := by simp [h]

/-- An earlier fault is kept (R184 (1)). -/
theorem raise_faultReg_of_set {s : State} (h : s.faultReg ≠ 0) (c : Cause) :
    (raise c s).faultReg = s.faultReg := by rw [raise_faultReg, if_neg h]

theorem Cause.code_ne_zero (c : Cause) : c.code ≠ 0 := by cases c <;> decide

theorem Cause.code_le_four (c : Cause) : c.code.toNat ≤ 4 := by cases c <;> decide

end Sys2Proof.Machine
end

