-- ==== Sys2Proof/Laws/Commands.lean ====
section
/-! SUPPORT. The fourteen commands of the formats `B0` and `BN` have one shape: their checks, then the bytes of
their encoding through `Emit`. -/

namespace Sys2Proof.Machine

/-- The bank byte the banked meanings write, by its flags (R64). -/
theorem bankByte_literal (b : BankIx) :
    bankByte false false b = b.setWidth 8 ∧ bankByte false true b = 0x40 ||| b.setWidth 8 ∧
    bankByte true false b = 0x80 ||| b.setWidth 8 ∧ bankByte true true b = 0xC0 ||| b.setWidth 8 := by
  revert b; decide

/-- The domain checks of a command, in the order its meaning makes them; the terminator has none. -/
def domainChecks : Instr → List (Option Refusal)
  | .onl0 u l => [unitRefusal u, maskRefusal l]
  | .onm0 u m => [unitRefusal u, maskRefusal m]
  | .onlm0 u l m => [unitRefusal u, maskRefusal l, maskRefusal m]
  | .setl0 u _ l => [unitRefusal u, maskRefusal l]
  | .setm0 u _ m => [unitRefusal u, maskRefusal m]
  | .setlm0 u _ l m => [unitRefusal u, maskRefusal l, maskRefusal m]
  | .offb0 u => [unitRefusal u]
  | .onlmn u b l m => [unitRefusal u, bankRefusal b, maskRefusal l, maskRefusal m]
  | .onln u b l => [unitRefusal u, bankRefusal b, maskRefusal l]
  | .onmn u b m => [unitRefusal u, bankRefusal b, maskRefusal m]
  | .offbn u b => [unitRefusal u, bankRefusal b]
  | .setlmn u _ b l m => [unitRefusal u, bankRefusal b, maskRefusal l, maskRefusal m]
  | .setln u _ b l => [unitRefusal u, bankRefusal b, maskRefusal l]
  | .setmn u _ b m => [unitRefusal u, bankRefusal b, maskRefusal m]
  | .endWrite => []
  | .nop => []
  | .init => []
  | .frame => []
  | .alloff => []

/-- A wire command other than the terminator is `command` of its checks and its encoding. -/
theorem exec_wire {i : Instr} (hi : i.isWire = true) (he : i ≠ .endWrite) (s : State) :
    exec i s = command (domainChecks i) (encodeBytes i) s := by
  cases i
  case endWrite => exact absurd rfl he
  case nop | init | frame | alloff => cases hi
  all_goals simp only [encodeBytes, bankByte_literal]; rfl

/-- A well-formed command passes its checks. -/
theorem domainChecks_of_wf {i : Instr} (hw : i.wf = true) : ∀ c ∈ domainChecks i, c = none := by
  cases i <;> simp only [Instr.wf, Bool.and_eq_true] at hw <;> simp [domainChecks, hw]

/-- A well-formed wire command other than the terminator sends its encoding through `Emit`, and does no more. -/
theorem exec_wire_of_wf {i : Instr} (hi : i.isWire = true) (he : i ≠ .endWrite) (hw : i.wf = true) (s : State) :
    exec i s = .next (emit (encodeBytes i) s).state := by
  rw [exec_wire hi he, command_of_pass (domainChecks_of_wf hw)]

end Sys2Proof.Machine
end

