-- ==== Sys2Proof/Laws/Config.lean ====
section
/-! SUPPORT. The width the block is built with reaches exactly the widths that satisfy R5's constraint. -/

namespace Sys2Proof.Config

/-- `leastWidth n` is the least width of a count up to `n`, 0 for `n = 0` (R5). -/
theorem leastWidth_le {n w : Nat} : leastWidth n ≤ w ↔ n < 2 ^ w := by
  unfold leastWidth
  split
  · subst n; simp
  · rename_i h
    rw [Nat.succ_le_iff, Nat.log2_lt h]

/-- The widths `CH_W` can take as `widthSlack` varies are exactly those R5 allows. -/
theorem widths_reached {n w : Nat} : (∃ slack, leastWidth n + slack = w) ↔ n < 2 ^ w := by
  rw [← leastWidth_le, le_iff_exists_add]
  simp only [eq_comm]

/-- The block as built satisfies R5's constraint. -/
theorem maxChannels_lt : maxChannels < 2 ^ chW := leastWidth_le.1 (Nat.le_add_right _ _)

end Sys2Proof.Config
end

