-- ==== Sys2Proof/Laws/Grouping.lean ====
section
/-! SUPPORT. The grouping of a bank as the statements say it (`distinct`, `maskOf`, `groupsOf`), one channel at a
time, and what a bank of the loop is made of. -/

namespace Sys2Proof.Machine

@[simp] theorem bankOf_groups (src old : Nat → Byte) (force : Bool) (p : PassSpec) (b : Nat) :
    (bankOf src old force p b).groups = groupsOf (bankValues src p b) := rfl
@[simp] theorem bankOf_color (src old : Nat → Byte) (force : Bool) (p : PassSpec) (b : Nat) :
    (bankOf src old force p b).color = (bankValues src p b).any isMid := rfl
@[simp] theorem bankOf_chg (src old : Nat → Byte) (force : Bool) (p : PassSpec) (b : Nat) :
    (bankOf src old force p b).chg = (force || bankValues src p b != bankValues old p b) := rfl

@[simp] theorem bankValues_length (src : Nat → Byte) (p : PassSpec) (b : Nat) :
    (bankValues src p b).length = min 16 (p.len - 16 * b) := by simp [bankValues]

/-- A bank has at most 16 values. -/
theorem bankValues_le (src : Nat → Byte) (p : PassSpec) (b : Nat) : (bankValues src p b).length ≤ 16 := by
  rw [bankValues_length]; omega

@[simp] theorem distinct_nil : distinct [] = [] := rfl

@[simp] theorem mem_distinct {w : Byte} {vals : List Byte} : w ∈ distinct vals ↔ w ∈ vals := by
  induction vals with
  | nil => simp
  | cons v vs ih =>
    simp only [distinct, List.mem_cons, List.mem_filter, ih, bne_iff_ne, ne_eq]
    by_cases h : w = v <;> simp [h]

theorem distinct_nodup (vals : List Byte) : (distinct vals).Nodup := by
  induction vals with
  | nil => simp
  | cons v vs ih => simp [distinct, ih.filter]

/-- A further value is new, or changes nothing. -/
theorem distinct_concat (vals : List Byte) (v : Byte) :
    distinct (vals ++ [v]) = if v ∈ vals then distinct vals else distinct vals ++ [v] := by
  induction vals with
  | nil => simp [distinct]
  | cons w vs ih =>
    simp only [List.cons_append, distinct, ih, List.mem_cons]
    by_cases h1 : v ∈ vs
    · simp [h1]
    · by_cases h2 : v = w
      · subst h2; simp [h1]
      · simp [h1, h2]

/-- Bit `k` of a value's mask: channel `k` holds the value. -/
theorem maskOf_getLsbD (v : Byte) {vals : List Byte} (h : vals.length ≤ 16) (k : Nat) :
    (maskOf v vals).getLsbD k = decide (vals[k]? = some v) := by
  simp only [maskOf, BitVec.getLsbD_setWidth, BitVec.getLsbD_ofBoolListLE, List.getD_eq_getElem?_getD,
    List.getElem?_map]
  by_cases hk : k < vals.length
  · have : k < 16 := by omega
    simp [hk, this, Bool.beq_eq_decide_eq]
  · simp [hk]

/-- The mask of a value the bank does not hold is empty. -/
theorem maskOf_of_not_mem {v : Byte} {vals : List Byte} (h : v ∉ vals) (hl : vals.length ≤ 16) :
    maskOf v vals = 0 := by
  apply BitVec.eq_of_getLsbD_eq
  intro k hk
  rw [maskOf_getLsbD _ hl]
  simpa using fun e => h (List.mem_of_getElem? e)

/-- The mask of a value the bank holds is not empty. -/
theorem maskOf_ne_zero {v : Byte} {vals : List Byte} (h : v ∈ vals) (hl : vals.length ≤ 16) : maskOf v vals ≠ 0 := by
  obtain ⟨k, hk⟩ := List.mem_iff_getElem?.1 h
  intro h0
  have := maskOf_getLsbD v hl k
  rw [h0] at this
  simp [hk] at this

/-- The mask after one more channel. -/
theorem maskOf_concat (w v : Byte) {vals : List Byte} (h : vals.length < 16) :
    maskOf w (vals ++ [v]) = maskOf w vals ||| (if v = w then channelBit vals.length else 0) := by
  apply BitVec.eq_of_getLsbD_eq
  intro k hk
  rw [BitVec.getLsbD_or, maskOf_getLsbD _ (by simp; omega), maskOf_getLsbD _ (by omega)]
  rcases Nat.lt_trichotomy k vals.length with h1 | h1 | h1
  · split <;> simp [List.getElem?_append_left h1, channelBit, BitVec.getLsbD_twoPow]; intro _ ; omega
  · subst h1
    split <;> simp [channelBit, *]
  · have h3 : (vals ++ [v])[k]? = none := by simp; omega
    have h4 : vals[k]? = none := by simp; omega
    rw [h3, h4]
    split <;> simp [channelBit, BitVec.getLsbD_twoPow]; omega

/-- `GroupInsert` over groups with distinct values (R113). -/
theorem groupInsert_map (v : Byte) (k : Nat) (f : Byte → Mask) {l : List Byte} (hn : l.Nodup) :
    groupInsert v k (l.map (fun w => { val := w, mask := f w })) =
      if v ∈ l then l.map (fun w => { val := w, mask := f w ||| (if v = w then channelBit k else 0) })
      else l.map (fun w => { val := w, mask := f w }) ++ [{ val := v, mask := channelBit k }] := by
  induction l with
  | nil => simp [groupInsert]
  | cons w l ih =>
    rw [List.nodup_cons] at hn
    simp only [List.map_cons, groupInsert]
    by_cases hw : w = v
    · subst hw
      simp only [if_true, List.mem_cons, true_or]
      congr 1
      apply List.map_congr_left
      intro x hx
      have : w ≠ x := by rintro rfl; exact hn.1 hx
      simp [this]
    · have : v ≠ w := fun e => hw e.symm
      simp only [hw, if_false, ih hn.2, List.mem_cons, this, false_or]
      split <;> simp

/-- Inserting the next channel's value into a bank's groups gives the groups of the values with it (R18, R113). -/
theorem groupInsert_groupsOf (v : Byte) {vals : List Byte} (h : vals.length < 16) :
    groupInsert v vals.length (groupsOf vals) = groupsOf (vals ++ [v]) := by
  rw [groupsOf, groupInsert_map _ _ _ (distinct_nodup _), groupsOf, distinct_concat]
  simp only [mem_distinct]
  split
  · simp only [maskOf_concat _ _ h]
  · rename_i hv
    rw [List.map_append]
    congr 1
    · apply List.map_congr_left
      intro x hx
      have : v ≠ x := by rintro rfl; exact hv (mem_distinct.1 hx)
      simp [maskOf_concat _ _ h, this]
    · simp [maskOf_concat _ _ h, maskOf_of_not_mem hv (Nat.le_of_lt h)]

@[simp] theorem groupsOf_vals (vals : List Byte) : (groupsOf vals).map (·.val) = distinct vals := by
  simp [groupsOf, Function.comp_def]

/-- The groups with a property of the value, in order. -/
theorem filter_groupsOf (f : Byte → Bool) (vals : List Byte) :
    (groupsOf vals).filter (fun g => f g.val) =
      ((distinct vals).filter f).map (fun v => { val := v, mask := maskOf v vals }) := by
  rw [groupsOf, List.filter_map]; rfl

/-- The one entry with a given value, if there is one. -/
theorem filter_distinct_eq (v : Byte) (vals : List Byte) :
    (distinct vals).filter (· == v) = if v ∈ vals then [v] else [] := by
  have key : ∀ l : List Byte, l.Nodup → l.filter (· == v) = if v ∈ l then [v] else [] := by
    intro l h
    induction l with
    | nil => simp
    | cons w l ih =>
      rw [List.nodup_cons] at h
      rw [List.filter_cons, ih h.2]
      by_cases hw : w = v
      · subst hw; simp [h.1]
      · have : v ≠ w := fun e => hw e.symm
        simp [hw, this]
  simpa using key _ (distinct_nodup vals)

end Sys2Proof.Machine
end

