-- ==== Sys2Proof/Laws/Encoder.lean ====
section
/-! SUPPORT. What one pass of `FRAME` and one pass of `ALLOFF` do: the pass that fits, and the frame of a pass
however it ends. -/

namespace Sys2Proof.Machine

/-- A pass with no changed bank has no command (R118). -/
theorem passCommands_of_unchanged {par : Params} {unit : Byte} {banks : List Bank}
    (h : passChanged banks = false) : passCommands par unit banks = [] := by
  rw [passCommands, List.flatMap_eq_nil_iff]
  intro x hx
  have hm : x.1 ∈ banks := by
    rw [List.mem_reverse] at hx
    exact List.fst_mem_of_mem_zipIdx hx
  rw [passChanged, List.any_eq_false] at h
  rw [if_neg (h _ hm)]

/-- `ENCODE_PASS` where the pass's bytes fit: the history takes the pass's values, and the write goes out if a bank
has changed (R116, R118, R124). -/
theorem encodePass_of_fits {p : PassSpec} {s : State}
    (h : (passBytes s.par p.unit (groupingOf s p).banks).length ≤ Config.cmdBufBytes) :
    encodePass p s = .on { s with
      cmdbuf := [], last := (groupingOf s p).last
      trace := s.trace ++
        if passChanged (groupingOf s p).banks then [.txWrite (passBytes s.par p.unit (groupingOf s p).banks)]
        else [] } := by
  unfold encodePass writePass
  cases hc : passChanged (groupingOf s p).banks with
  | true =>
    have he := emits_then_close (passCommands s.par p.unit (groupingOf s p).banks) (s := beginPass p s) rfl
    rw [if_pos (by simpa [passBytes, terminator] using h)] at he
    exact he
  | false =>
    rw [passCommands_of_unchanged hc]
    simp [beginPass]

/-- A pass of `ALLOFF` that fits (R173). -/
theorem allOffPass_of_fits {p : PassSpec} {s : State}
    (h : (offCommands p.unit p.nb).flatten.length + 2 ≤ Config.cmdBufBytes) :
    allOffPass p s =
      if p.nb = 0 then .on s
      else .on { s with
        cmdbuf := []
        trace := s.trace ++ [.txWrite ((offCommands p.unit p.nb).flatten ++ terminator)] } := by
  unfold allOffPass
  split
  · rfl
  · have he := emits_then_close (offCommands p.unit p.nb) (s := clearBuf s) rfl
    rw [if_pos h] at he
    exact he

/-- What a pass of either encoder leaves alone whichever way it ends; the trace only grows. -/
structure PassFrame (s t : State) : Prop where
  par : t.par = s.par
  cfg : t.cfg = s.cfg
  force : t.force = s.force
  total : t.total = s.total
  occ : t.occ = s.occ
  settleTimer : t.settleTimer = s.settleTimer
  staged : t.staged = s.staged
  ports : t.ports = s.ports
  pending : t.pending = s.pending
  freeCount : t.freeCount = s.freeCount
  trace : ∃ evs, t.trace = s.trace ++ evs ∧ .heartbeat ∉ evs ∧ .settle ∉ evs

theorem PassFrame.refl (s : State) : PassFrame s s := by
  constructor <;> first | rfl | exact ⟨[], by simp⟩

theorem PassFrame.trans {s t u : State} (h : PassFrame s t) (k : PassFrame t u) : PassFrame s u := by
  obtain ⟨e, he, h1, h2⟩ := h.trace
  obtain ⟨f, hf, k1, k2⟩ := k.trace
  constructor
  case trace => exact ⟨e ++ f, by rw [hf, he, List.append_assoc], by simp [h1, k1], by simp [h2, k2]⟩
  all_goals first
    | rw [k.par, h.par] | rw [k.cfg, h.cfg] | rw [k.force, h.force] | rw [k.total, h.total] | rw [k.occ, h.occ]
    | rw [k.settleTimer, h.settleTimer] | rw [k.staged, h.staged] | rw [k.ports, h.ports]
    | rw [k.pending, h.pending] | rw [k.freeCount, h.freeCount]

/-- A run of elements each of which keeps the frame keeps it. -/
theorem runEach_passFrame {α : Type} {f : α → State → Flow} (hf : ∀ a s, PassFrame s (f a s).state) (as : List α)
    (s : State) : PassFrame s (runEach f as s).state :=
  runEach_rel (R := PassFrame) PassFrame.refl PassFrame.trans hf as s

/-- The second part of a flow keeps the frame too. -/
theorem andThen_passFrame {x : Flow} {f : State → Flow} {s : State} (hx : PassFrame s x.state)
    (hf : ∀ t, PassFrame t (f t).state) : PassFrame s (x.andThen f).state := by
  cases x with
  | on t => exact hx.trans (hf t)
  | ended t => exact hx

theorem emit_passFrame (bytes : List Byte) (s : State) : PassFrame s (emit bytes s).state := by
  by_cases h : s.cmdbuf.length + bytes.length ≤ Config.cmdBufBytes
  · rw [emit_of_fits h]; constructor <;> first | rfl | exact ⟨[], by simp⟩
  · rw [emit_of_full (by omega)]; constructor <;> first | rfl | exact ⟨[.done .faulted], by simp⟩

theorem closePass_passFrame (s : State) : PassFrame s (closePass s).state := by
  refine andThen_passFrame (emit_passFrame _ s) fun t => ?_
  constructor <;> first | rfl | exact ⟨[.txWrite t.cmdbuf], by simp [txWrite]⟩

theorem encodePass_passFrame (p : PassSpec) (s : State) : PassFrame s (encodePass p s).state := by
  unfold encodePass
  refine andThen_passFrame (.trans (t := beginPass p s) ?_ (runEach_passFrame emit_passFrame _ _)) fun t => ?_
  · constructor <;> first | rfl | exact ⟨[], by simp [beginPass]⟩
  · unfold writePass
    split
    · exact closePass_passFrame t
    · exact .refl t

theorem allOffPass_passFrame (p : PassSpec) (s : State) : PassFrame s (allOffPass p s).state := by
  unfold allOffPass
  split
  · exact .refl s
  · refine andThen_passFrame (.trans (t := clearBuf s) ?_ (runEach_passFrame emit_passFrame _ _)) closePass_passFrame
    constructor <;> first | rfl | exact ⟨[], by simp [clearBuf]⟩

/-- `SRC` is read from the input levels and the free-value counter alone. -/
theorem srcRead_congr {s t : State} (hp : t.ports = s.ports) (hf : t.freeCount = s.freeCount) :
    srcRead t = srcRead s := by
  funext a
  rw [srcRead, srcRead, hp, hf]

/-- The banks of a pass depend on the history at the pass's channels only. -/
theorem bankValues_congr {f g : Nat → Byte} {p : PassSpec} (h : ∀ a, p.holds a → f a = g a) (b : Nat) :
    bankValues f p b = bankValues g p b := by
  apply List.map_congr_left
  intro k hk
  rw [List.mem_range] at hk
  exact h _ ⟨by omega, by omega⟩

theorem banksOf_congr {src f g : Nat → Byte} {force : Bool} {p : PassSpec} (h : ∀ a, p.holds a → f a = g a) :
    banksOf src f force p = banksOf src g force p := by
  unfold banksOf bankOf
  simp only [bankValues_congr h]

end Sys2Proof.Machine
end

