-- ==== Sys2Proof/Laws/Encoding.lean ====
section
/-! SUPPORT. The fields of the bank byte, the bytes of a mask, and what each part of the decoder gives. -/

namespace Sys2Proof

@[simp] theorem bankByteBank_bankByte (nl nm : Bool) (b : BankIx) : bankByteBank (bankByte nl nm b) = b := by
  revert b; cases nl <;> cases nm <;> decide

@[simp] theorem bankByteNl_bankByte (nl nm : Bool) (b : BankIx) : bankByteNl (bankByte nl nm b) = nl := by
  revert b; cases nl <;> cases nm <;> decide

@[simp] theorem bankByteNm_bankByte (nl nm : Bool) (b : BankIx) : bankByteNm (bankByte nl nm b) = nm := by
  revert b; cases nl <;> cases nm <;> decide

/-- A bank byte is made of its three fields (R64). -/
theorem bankByte_fields (bb : Byte) : bankByte (bankByteNl bb) (bankByteNm bb) (bankByteBank bb) = bb := by
  revert bb; decide

theorem unitOk_iff {u : Byte} : unitOk u = true ↔ u ≠ 0 ∧ u ≠ 0xFF := by simp [unitOk]

theorem bankOk_iff {b : BankIx} : bankOk b = true ↔ b ≠ 0 := by simp [bankOk]

theorem maskOk_iff {m : Byte} : maskOk m = true ↔ m ≠ 0 := by simp [maskOk]

/-! The parts of the decoder. -/

theorem oneMask_cons {f : Byte → Instr} {x : Byte} (h : maskOk x = true) (rest : List Byte) :
    oneMask f (x :: rest) = .ok (f x, rest) := by rw [oneMask, if_neg (maskOk_iff.1 h)]

theorem twoMasks_cons {f : Byte → Byte → Instr} {l m : Byte} (hl : maskOk l = true) (hm : maskOk m = true)
    (rest : List Byte) : twoMasks f (l :: m :: rest) = .ok (f l m, rest) := by
  rw [twoMasks, if_neg (maskOk_iff.1 hl), oneMask_cons hm]

/-- What `oneMask` accepts. -/
theorem oneMask_eq_ok {f : Byte → Instr} {q rest : List Byte} {i : Instr} (h : oneMask f q = .ok (i, rest)) :
    ∃ x, maskOk x = true ∧ q = x :: rest ∧ i = f x := by
  cases q with
  | nil => simp [oneMask] at h
  | cons x q =>
    simp only [oneMask] at h
    split at h
    · simp at h
    · rename_i hx
      simp only [Except.ok.injEq, Prod.mk.injEq] at h
      exact ⟨x, maskOk_iff.2 hx, by rw [h.2], h.1.symm⟩

/-- What `twoMasks` accepts. -/
theorem twoMasks_eq_ok {f : Byte → Byte → Instr} {q rest : List Byte} {i : Instr}
    (h : twoMasks f q = .ok (i, rest)) :
    ∃ l m, maskOk l = true ∧ maskOk m = true ∧ q = l :: m :: rest ∧ i = f l m := by
  cases q with
  | nil => simp [twoMasks] at h
  | cons l q =>
    simp only [twoMasks] at h
    split at h
    · simp at h
    · rename_i hl
      obtain ⟨m, hm, rfl, rfl⟩ := oneMask_eq_ok h
      exact ⟨l, m, maskOk_iff.2 hl, hm, rfl, rfl⟩

/-- What `withVal` accepts. -/
theorem withVal_eq_ok {f : Byte → List Byte → Except Reject (Instr × List Byte)} {q rest : List Byte} {i : Instr}
    (h : withVal f q = .ok (i, rest)) : ∃ v r, q = v :: r ∧ f v r = .ok (i, rest) := by
  cases q with
  | nil => simp [withVal] at h
  | cons v r => exact ⟨v, r, rfl, h⟩

section Banked

variable {both : BankIx → Byte → Byte → Instr} {lsbOnly msbOnly : BankIx → Byte → Instr}
  {whole : BankIx → Except Reject Instr} {b : BankIx}

/-- `withBank` reads the bank byte the encoder writes, by its two flags. -/
theorem withBank_both {l m : Byte} (hb : bankOk b = true) (hl : maskOk l = true) (hm : maskOk m = true)
    (rest : List Byte) :
    withBank both lsbOnly msbOnly whole (bankByte false false b :: l :: m :: rest) = .ok (both b l m, rest) := by
  simp only [withBank, bankByteBank_bankByte, bankByteNl_bankByte, bankByteNm_bankByte, if_neg (bankOk_iff.1 hb),
    twoMasks_cons hl hm]

theorem withBank_lsb {l : Byte} (hb : bankOk b = true) (hl : maskOk l = true) (rest : List Byte) :
    withBank both lsbOnly msbOnly whole (bankByte false true b :: l :: rest) = .ok (lsbOnly b l, rest) := by
  simp only [withBank, bankByteBank_bankByte, bankByteNl_bankByte, bankByteNm_bankByte, if_neg (bankOk_iff.1 hb),
    oneMask_cons hl]

theorem withBank_msb {m : Byte} (hb : bankOk b = true) (hm : maskOk m = true) (rest : List Byte) :
    withBank both lsbOnly msbOnly whole (bankByte true false b :: m :: rest) = .ok (msbOnly b m, rest) := by
  simp only [withBank, bankByteBank_bankByte, bankByteNl_bankByte, bankByteNm_bankByte, if_neg (bankOk_iff.1 hb),
    oneMask_cons hm]

theorem withBank_whole {i : Instr} (hb : bankOk b = true) (hw : whole b = .ok i) (rest : List Byte) :
    withBank both lsbOnly msbOnly whole (bankByte true true b :: rest) = .ok (i, rest) := by
  simp only [withBank, bankByteBank_bankByte, bankByteNl_bankByte, bankByteNm_bankByte, if_neg (bankOk_iff.1 hb), hw]

/-- What `withBank` accepts. -/
theorem withBank_eq_ok {q rest : List Byte} {i : Instr}
    (h : withBank both lsbOnly msbOnly whole q = .ok (i, rest)) :
    ∃ b : BankIx, bankOk b = true ∧
      ((∃ l m, maskOk l = true ∧ maskOk m = true ∧ q = bankByte false false b :: l :: m :: rest ∧ i = both b l m) ∨
       (∃ l, maskOk l = true ∧ q = bankByte false true b :: l :: rest ∧ i = lsbOnly b l) ∨
       (∃ m, maskOk m = true ∧ q = bankByte true false b :: m :: rest ∧ i = msbOnly b m) ∨
       (whole b = .ok i ∧ q = bankByte true true b :: rest)) := by
  cases q with
  | nil => simp [withBank] at h
  | cons bb r =>
    simp only [withBank] at h
    split at h
    · simp at h
    · rename_i hb
      refine ⟨bankByteBank bb, bankOk_iff.2 hb, ?_⟩
      have hbb := bankByte_fields bb
      split at h
      · rename_i h7 h6
        rw [h7, h6] at hbb
        obtain ⟨l, m, hl, hm, rfl, rfl⟩ := twoMasks_eq_ok h
        exact .inl ⟨l, m, hl, hm, by rw [hbb], rfl⟩
      · rename_i h7 h6
        rw [h7, h6] at hbb
        obtain ⟨l, hl, rfl, rfl⟩ := oneMask_eq_ok h
        exact .inr (.inl ⟨l, hl, by rw [hbb], rfl⟩)
      · rename_i h7 h6
        rw [h7, h6] at hbb
        obtain ⟨m, hm, rfl, rfl⟩ := oneMask_eq_ok h
        exact .inr (.inr (.inl ⟨m, hm, by rw [hbb], rfl⟩))
      · rename_i h7 h6
        rw [h7, h6] at hbb
        split at h
        · rename_i j hj
          simp only [Except.ok.injEq, Prod.mk.injEq] at h
          exact .inr (.inr (.inr ⟨by rw [hj, h.1], by rw [hbb, h.2]⟩))
        · simp at h

end Banked

/-- The two banked opcodes (R65). -/
theorem decodeOp_banked (u : Byte) (q : List Byte) :
    decodeOp u 0x51 q = withBank (.onlmn u) (.onln u) (.onmn u) (fun b => .ok (.offbn u b)) q := rfl

theorem decodeOp_banked_val (u v : Byte) (q : List Byte) :
    decodeOp u 0x53 (v :: q) =
      withBank (.setlmn u v) (.setln u v) (.setmn u v) (fun _ => .error .setWhole) q := rfl

/-- A command byte sequence with a legal header is decoded by its opcode. -/
theorem decodeWire_header {u : Byte} (hu : unitOk u = true) (op : Byte) (rest : List Byte) :
    decodeWire (0x00 :: u :: op :: rest) = decodeOp u op rest := by
  obtain ⟨h0, hf⟩ := unitOk_iff.1 hu
  simp only [decodeWire, ne_eq, not_true_eq_false, if_false, h0, hf]

namespace Machine

@[simp] theorem maskLsb_joinMask (l m : Byte) : maskLsb (joinMask l m) = l := by
  apply BitVec.eq_of_getLsbD_eq
  intro i hi
  have h8 : i < 8 := hi
  have h16 : i < 16 := by omega
  simp [maskLsb, joinMask, h8, h16]

@[simp] theorem maskMsb_joinMask (l m : Byte) : maskMsb (joinMask l m) = m := by
  apply BitVec.eq_of_getLsbD_eq
  intro i hi
  have h8 : i < 8 := hi
  have h16 : 8 + i < 16 := by omega
  simp [maskMsb, joinMask, h8, h16]

/-- A mask is the join of its two bytes (R69). -/
theorem joinMask_bytes (m : Mask) : joinMask (maskLsb m) (maskMsb m) = m := by
  apply BitVec.eq_of_getLsbD_eq
  intro i hi
  have h16 : i < 16 := hi
  by_cases h8 : i < 8
  · simp [joinMask, maskLsb, h8, h16]
  · have h2 : i - 8 < 8 := by omega
    have h3 : 8 + (i - 8) = i := by omega
    simp [joinMask, maskLsb, maskMsb, h8, h16, h2, h3]

/-- A mask that is not zero has a byte that is not zero (R158). -/
theorem mask_bytes_ne_zero {m : Mask} (h : m ≠ 0) : maskLsb m ≠ 0 ∨ maskMsb m ≠ 0 := by
  by_contra hc
  simp only [not_or, not_not] at hc
  exact h (by rw [← joinMask_bytes m, hc.1, hc.2]; decide)

/-- The bank byte the generator builds is the encoder's with the absence flags of the mask (R64, R158). -/
theorem genBankByte_eq (b : BankIx) (m : Mask) :
    genBankByte b m = bankByte (decide (maskLsb m = 0)) (decide (maskMsb m = 0)) b := by
  have key : ∀ (p q : Bool), (b.setWidth 8 ||| (if q then (0x40 : Byte) else 0)) ||| (if p then (0x80 : Byte) else 0) =
      bankByte p q b := by
    revert b; intro b p q; revert b; cases p <;> cases q <;> decide
  have := key (decide (maskLsb m = 0)) (decide (maskMsb m = 0))
  simpa [genBankByte] using this

end Machine

end Sys2Proof
end

