-- ==== Sys2Proof/Laws/PerInstr.lean ====
section
/-! SUPPORT. One law for every instruction: how many bytes it takes on the wire (R60, R67, R72, R80). -/

namespace Sys2Proof.Laws.EncodedLength

/-- A wire command takes 3 to 7 bytes, the terminator 2, a host operation none. -/
def Statement (i : Instr) : Prop :=
  (i.isWire = true → 2 ≤ (encodeBytes i).length ∧ (encodeBytes i).length ≤ 7 ∧
    ((encodeBytes i).length = 2 ↔ i = .endWrite)) ∧
  (i.isWire = false → encodeBytes i = [])

theorem onl0 (u l : Byte) : Statement (.onl0 u l) := by simp [Statement, Instr.isWire, encodeBytes]
theorem onm0 (u m : Byte) : Statement (.onm0 u m) := by simp [Statement, Instr.isWire, encodeBytes]
theorem onlm0 (u l m : Byte) : Statement (.onlm0 u l m) := by simp [Statement, Instr.isWire, encodeBytes]
theorem setl0 (u v l : Byte) : Statement (.setl0 u v l) := by simp [Statement, Instr.isWire, encodeBytes]
theorem setm0 (u v m : Byte) : Statement (.setm0 u v m) := by simp [Statement, Instr.isWire, encodeBytes]
theorem setlm0 (u v l m : Byte) : Statement (.setlm0 u v l m) := by simp [Statement, Instr.isWire, encodeBytes]
theorem offb0 (u : Byte) : Statement (.offb0 u) := by simp [Statement, Instr.isWire, encodeBytes]
theorem onlmn (u : Byte) (b : BankIx) (l m : Byte) : Statement (.onlmn u b l m) := by
  simp [Statement, Instr.isWire, encodeBytes]
theorem onln (u : Byte) (b : BankIx) (l : Byte) : Statement (.onln u b l) := by
  simp [Statement, Instr.isWire, encodeBytes]
theorem onmn (u : Byte) (b : BankIx) (m : Byte) : Statement (.onmn u b m) := by
  simp [Statement, Instr.isWire, encodeBytes]
theorem offbn (u : Byte) (b : BankIx) : Statement (.offbn u b) := by simp [Statement, Instr.isWire, encodeBytes]
theorem setlmn (u v : Byte) (b : BankIx) (l m : Byte) : Statement (.setlmn u v b l m) := by
  simp [Statement, Instr.isWire, encodeBytes]
theorem setln (u v : Byte) (b : BankIx) (l : Byte) : Statement (.setln u v b l) := by
  simp [Statement, Instr.isWire, encodeBytes]
theorem setmn (u v : Byte) (b : BankIx) (m : Byte) : Statement (.setmn u v b m) := by
  simp [Statement, Instr.isWire, encodeBytes]
theorem endWrite : Statement .endWrite := by simp [Statement, Instr.isWire, encodeBytes]
theorem nop : Statement .nop := by simp [Statement, Instr.isWire, encodeBytes]
theorem init : Statement .init := by simp [Statement, Instr.isWire, encodeBytes]
theorem frame : Statement .frame := by simp [Statement, Instr.isWire, encodeBytes]
theorem alloff : Statement .alloff := by simp [Statement, Instr.isWire, encodeBytes]

end Sys2Proof.Laws.EncodedLength
end

