-- ==== Sys2Proof/Laws/Planner.lean ====
section
/-! SUPPORT. The layout planner: which passes a controller has, where they lie, and how a unit is marked. -/

namespace Sys2Proof.Machine

theorem mem_passesOf {d : Descriptor} {base : Nat} {p : PassSpec} :
    p ∈ passesOf d base ↔ ∃ k, k < (plan d).npass ∧ passSpec d base k = p := by
  simp [passesOf]

/-- No pass starts behind the controller's last channel (R102). -/
theorem mul_cpp_le_eff {d : Descriptor} {k : Nat} (hk : k < (plan d).npass) :
    k * (plan d).cpp ≤ (plan d).eff := by
  rcases d with ⟨t, u, c, m⟩
  by_cases hm : t = .malformed
  · simp [plan, hm]
  by_cases hc : c = 0
  · simp [plan, hc]
  have key : ∀ n, k < n → k * c ≤ c * n := fun n h => by rw [Nat.mul_comm]; exact Nat.mul_le_mul_left _ (by omega)
  cases t <;> cases m <;> simp_all [plan, pixiePorts, Config.legacyCpp, ceil16] <;> first
    | exact key _ hk
    | (interval_cases k <;> omega)
    | omega

/-- A pass lies inside its controller's channels (R48, R93, R102). -/
theorem passSpec_bounds {d : Descriptor} (base : Nat) {k : Nat} (hk : k < (plan d).npass) :
    base ≤ (passSpec d base k).g0 ∧ (passSpec d base k).g0 + (passSpec d base k).len ≤ base + (plan d).eff := by
  have := mul_cpp_le_eff hk
  simp only [passSpec]
  omega

/-- Marking one unit (R99). -/
theorem markUnit_getLsbD (occ : BitVec 255) (u : Nat) {v : Nat} (hv : v ≤ 254) :
    (markUnit occ u).getLsbD v = (occ.getLsbD v || decide (u = v)) := by
  simp only [markUnit, Config.unitMax]
  by_cases h : u ≤ 254
  · rw [if_pos h, BitVec.getLsbD_or, BitVec.getLsbD_twoPow]
    have : v < 255 := by omega
    by_cases h2 : u = v <;> simp [h2, this]
  · have : u ≠ v := by omega
    simp [h, this]

/-- What `VALIDATE` accepts is legal and fits (R203). -/
theorem validate_eq_none {maxChannels : Nat} {cfg : List Descriptor} (h : validate maxChannels cfg = none) :
    (∀ d ∈ cfg, controllerFault d = none) ∧ effTotal cfg ≤ maxChannels := by
  simp only [validate] at h
  split at h
  · cases h
  · rename_i hf
    split at h
    · cases h
    · exact ⟨List.findSome?_eq_none_iff.1 hf, by omega⟩

end Sys2Proof.Machine
end

