-- ==== Sys2Proof/Laws/Step.lean ====
section
/-! SUPPORT. What a step can do, once: the nine cases of `step`, and what a wire command, a `FRAME` and an `ALLOFF`
leave alone. -/

namespace Sys2Proof.Machine

/-- What follows a header is a wire command. -/
theorem decodeOp_isWire {u op : Byte} {q rest : List Byte} {i : Instr} (h : decodeOp u op q = .ok (i, rest)) :
    i.isWire = true := by
  rw [decodeOp] at h
  by_cases c0 : op = 0x41
  · rw [if_pos c0] at h; cases h; rfl
  rw [if_neg c0] at h
  by_cases c1 : op = 0x11
  · rw [if_pos c1] at h; obtain ⟨_, _, _, rfl⟩ := oneMask_eq_ok h; rfl
  rw [if_neg c1] at h
  by_cases c2 : op = 0x21
  · rw [if_pos c2] at h; obtain ⟨_, _, _, rfl⟩ := oneMask_eq_ok h; rfl
  rw [if_neg c2] at h
  by_cases c3 : op = 0x31
  · rw [if_pos c3] at h; obtain ⟨_, _, _, _, _, rfl⟩ := twoMasks_eq_ok h; rfl
  rw [if_neg c3] at h
  by_cases c4 : op = 0x13
  · rw [if_pos c4] at h; obtain ⟨_, _, _, h⟩ := withVal_eq_ok h; obtain ⟨_, _, _, rfl⟩ := oneMask_eq_ok h; rfl
  rw [if_neg c4] at h
  by_cases c5 : op = 0x23
  · rw [if_pos c5] at h; obtain ⟨_, _, _, h⟩ := withVal_eq_ok h; obtain ⟨_, _, _, rfl⟩ := oneMask_eq_ok h; rfl
  rw [if_neg c5] at h
  by_cases c6 : op = 0x33
  · rw [if_pos c6] at h; obtain ⟨_, _, _, h⟩ := withVal_eq_ok h; obtain ⟨_, _, _, _, _, rfl⟩ := twoMasks_eq_ok h; rfl
  rw [if_neg c6] at h
  by_cases c7 : op = 0x51
  · rw [if_pos c7] at h
    obtain ⟨_, _, h⟩ := withBank_eq_ok h
    rcases h with ⟨_, _, _, _, _, rfl⟩ | ⟨_, _, _, rfl⟩ | ⟨_, _, _, rfl⟩ | ⟨h, _⟩
    all_goals first | rfl | (cases h; rfl)
  rw [if_neg c7] at h
  by_cases c8 : op = 0x53
  · rw [if_pos c8] at h
    obtain ⟨_, _, _, h⟩ := withVal_eq_ok h
    obtain ⟨_, _, h⟩ := withBank_eq_ok h
    rcases h with ⟨_, _, _, _, _, rfl⟩ | ⟨_, _, _, rfl⟩ | ⟨_, _, _, rfl⟩ | ⟨h, _⟩
    all_goals first | rfl | cases h
  rw [if_neg c8] at h
  cases h

/-- The decoder of the wire never gives a host operation. -/
theorem decodeWire_isWire {bytes rest : List Byte} {i : Instr} (h : decodeWire bytes = .ok (i, rest)) :
    i.isWire = true := by
  rcases bytes with _ | ⟨h0, _ | ⟨u, q⟩⟩
  · cases h
  · cases h
  · simp only [decodeWire] at h
    split at h
    · cases h
    split at h
    · cases q with
      | nil => cases h; rfl
      | cons => cases h
    split at h
    · cases h
    cases q with
    | nil => cases h
    | cons op q => exact decodeOp_isWire h

/-- What every instruction but `INIT` leaves alone whichever way it ends: the parameters, the configuration, the
staging table and the inputs; `FAULT` is kept once it is set. -/
structure Keeps (s t : State) : Prop where
  par : t.par = s.par
  cfg : t.cfg = s.cfg
  total : t.total = s.total
  occ : t.occ = s.occ
  staged : t.staged = s.staged
  ports : t.ports = s.ports
  pending : t.pending = s.pending
  fault : t.faultReg = s.faultReg ∨ s.faultReg = 0 ∧ t.faultReg ≠ 0 ∧ t.faultReg.toNat ≤ 4
  buf : s.cmdbuf.length ≤ Config.cmdBufBytes → t.cmdbuf.length ≤ Config.cmdBufBytes
  timer : s.settleTimer = 0 → t.settleTimer = 0
  trace : ∃ evs, t.trace = s.trace ++ evs

theorem Keeps.refl (s : State) : Keeps s s := by
  constructor <;> first | rfl | (left; rfl) | exact id | exact ⟨[], by simp⟩

theorem Keeps.trans {s t u : State} (h : Keeps s t) (k : Keeps t u) : Keeps s u := by
  obtain ⟨e, he⟩ := h.trace
  obtain ⟨f, hf⟩ := k.trace
  constructor
  case buf => exact fun x => k.buf (h.buf x)
  case timer => exact fun x => k.timer (h.timer x)
  case trace => exact ⟨e ++ f, by rw [hf, he, List.append_assoc]⟩
  case fault =>
    rcases k.fault with a | a
    · rw [a]; exact h.fault
    · rcases h.fault with b | b
      · right; rw [b] at a; exact a
      · exact absurd a.1 b.2.1
  all_goals first
    | rw [k.par, h.par] | rw [k.cfg, h.cfg] | rw [k.total, h.total] | rw [k.occ, h.occ]
    | rw [k.staged, h.staged] | rw [k.ports, h.ports] | rw [k.pending, h.pending]

/-- The fault entry keeps it (R184). -/
theorem Keeps.raise (c : Cause) (s : State) : Keeps s (Machine.raise c s) := by
  constructor
  case fault =>
    by_cases h : s.faultReg = 0
    · right; rw [raise_faultReg_of_clear h]; exact ⟨h, c.code_ne_zero, c.code_le_four⟩
    · left; rw [raise_faultReg_of_set h]
  case buf => intro _; rw [raise_cmdbuf]; simp
  case trace => exact ⟨_, rfl⟩
  all_goals first | rfl | exact id

/-- As `Keeps`, and the history and `FORCE` are left alone too. -/
structure KeepsHistory (s t : State) : Prop where
  keeps : Keeps s t
  last : t.last = s.last
  force : t.force = s.force

theorem KeepsHistory.refl (s : State) : KeepsHistory s s := ⟨.refl s, rfl, rfl⟩

theorem KeepsHistory.trans {s t u : State} (h : KeepsHistory s t) (k : KeepsHistory t u) : KeepsHistory s u :=
  ⟨h.keeps.trans k.keeps, by rw [k.last, h.last], by rw [k.force, h.force]⟩

/-- The second part of a flow keeps it too. -/
theorem andThen_keepsHistory {x : Flow} {f : State → Flow} {s : State} (hx : KeepsHistory s x.state)
    (hf : ∀ t, KeepsHistory t (f t).state) : KeepsHistory s (x.andThen f).state := by
  cases x with
  | on t => exact hx.trans (hf t)
  | ended t => exact hx

theorem emit_keepsHistory (bytes : List Byte) (s : State) : KeepsHistory s (emit bytes s).state := by
  by_cases h : s.cmdbuf.length + bytes.length ≤ Config.cmdBufBytes
  · rw [emit_of_fits h]
    refine ⟨⟨rfl, rfl, rfl, rfl, rfl, rfl, rfl, .inl rfl, ?_, id, ⟨[], by simp⟩⟩, rfl, rfl⟩
    intro _; simpa using h
  · rw [emit_of_full (by omega)]; exact ⟨.raise _ _, rfl, rfl⟩

theorem txWrite_keepsHistory (s : State) : KeepsHistory s (txWrite s) :=
  ⟨⟨rfl, rfl, rfl, rfl, rfl, rfl, rfl, .inl rfl, fun _ => by simp [txWrite], id, ⟨[.txWrite s.cmdbuf], rfl⟩⟩,
    rfl, rfl⟩

theorem closePass_keepsHistory (s : State) : KeepsHistory s (closePass s).state :=
  andThen_keepsHistory (emit_keepsHistory _ s) txWrite_keepsHistory

theorem clearBuf_keepsHistory (s : State) : KeepsHistory s (clearBuf s) :=
  ⟨⟨rfl, rfl, rfl, rfl, rfl, rfl, rfl, .inl rfl, fun _ => by simp [clearBuf], id, ⟨[], by simp [clearBuf]⟩⟩, rfl, rfl⟩

theorem emits_keepsHistory (cmds : List (List Byte)) (s : State) : KeepsHistory s (runEach emit cmds s).state :=
  runEach_rel KeepsHistory.refl KeepsHistory.trans emit_keepsHistory cmds s

theorem allOffPass_keepsHistory (p : PassSpec) (s : State) : KeepsHistory s (allOffPass p s).state := by
  unfold allOffPass
  split
  · exact .refl s
  · exact andThen_keepsHistory ((clearBuf_keepsHistory s).trans (emits_keepsHistory _ _)) closePass_keepsHistory

/-- A wire command, whatever its operands, keeps the history and the rest. -/
theorem wire_keepsHistory {i : Instr} (hi : i.isWire = true) {s t : State} (h : exec i s = .next t) :
    KeepsHistory s t := by
  by_cases he : i = .endWrite
  · subst he
    cases h
    exact closePass_keepsHistory s
  · rw [exec_wire hi he, command] at h
    split at h
    · cases h
    · cases h; exact emit_keepsHistory _ s

/-- `finish` keeps the history and the rest. -/
theorem finish_keepsHistory (st : Status) (s : State) : KeepsHistory s (finish st s) :=
  ⟨⟨rfl, rfl, rfl, rfl, rfl, rfl, rfl, .inl rfl, id, id, ⟨[.done st], rfl⟩⟩, rfl, rfl⟩

/-- The end of an `ALLOFF` keeps the history and the rest. -/
theorem endAllOff_keepsHistory (s : State) : KeepsHistory s (endAllOff s) := by
  have ht : ∃ evs, (endAllOff s).trace = s.trace ++ evs := ⟨[.heartbeat, .settle, .done .done], by simp [endAllOff]⟩
  refine ⟨⟨?_, ?_, ?_, ?_, ?_, ?_, ?_, ?_, ?_, ?_, ht⟩, ?_, ?_⟩ <;> simp [endAllOff]

/-- `ALLOFF` keeps the history and the rest, whichever way it goes. -/
theorem allOffOp_keepsHistory (s : State) : KeepsHistory s (allOffOp s) := by
  unfold allOffOp
  split
  · exact finish_keepsHistory _ s
  split
  · exact finish_keepsHistory _ s
  have h : KeepsHistory s (runEach allOffPass (layout 0 s.cfg) s).state :=
    runEach_rel KeepsHistory.refl KeepsHistory.trans allOffPass_keepsHistory _ _
  unfold allOffBody
  cases hr : runEach allOffPass (layout 0 s.cfg) s with
  | on t =>
    rw [hr] at h
    exact h.trans (endAllOff_keepsHistory t)
  | ended t => rw [hr] at h; exact h

/-- A pass of `FRAME` keeps everything but the history. -/
theorem encodePass_keeps (p : PassSpec) (s : State) : Keeps s (encodePass p s).state := by
  have hb : Keeps s (beginPass p s) :=
    ⟨rfl, rfl, rfl, rfl, rfl, rfl, rfl, .inl rfl, fun _ => by simp [beginPass], id, ⟨[], by simp [beginPass]⟩⟩
  refine hb.trans (andThen_keepsHistory (emits_keepsHistory _ _) fun t => ?_).keeps
  unfold writePass
  split
  · exact closePass_keepsHistory t
  · exact .refl t

/-- `FRAME` keeps everything but the history and `FORCE`, whichever way it goes (R130). -/
theorem frameOp_keeps (s : State) : Keeps s (frameOp s) := by
  unfold frameOp
  split
  · exact (finish_keepsHistory _ s).keeps
  split
  · exact (finish_keepsHistory _ s).keeps
  split
  · refine Keeps.trans ?_ (finish_keepsHistory _ _).keeps
    exact ⟨rfl, rfl, rfl, rfl, rfl, rfl, rfl, .inl rfl, id, id, ⟨_, rfl⟩⟩
  split
  · exact .raise _ s
  have h : Keeps (startFrame s) (runEach encodePass (layout s.ports.opStart s.cfg) (startFrame s)).state :=
    runEach_rel Keeps.refl Keeps.trans encodePass_keeps _ _
  have hs : Keeps s (startFrame s) :=
    ⟨rfl, rfl, rfl, rfl, rfl, rfl, rfl, .inl rfl, id, id, ⟨[], by simp [startFrame]⟩⟩
  unfold frameBody
  cases hr : runEach encodePass (layout s.ports.opStart s.cfg) (startFrame s) with
  | on t =>
    rw [hr] at h
    exact hs.trans (h.trans ⟨rfl, rfl, rfl, rfl, rfl, rfl, rfl, .inl rfl, id, id, ⟨[.done .done], rfl⟩⟩)
  | ended t => rw [hr] at h; exact hs.trans h

/-- All four codes of a host operation are used (R80). -/
theorem opCode_cases : ∀ code : BitVec 2, code = 0 ∨ code = 1 ∨ code = 2 ∨ code = 3 := by decide

/-- The cases of a step that answers a next state. -/
inductive StepCase (s t : State) : Prop where
  | idle : s.pending = [] → t = s → StepCase s t
  | staged (idx w : Nat) (q : List Stimulus) : s.pending = .stage idx w :: q →
      t = (if s.busy then { s with pending := q } else stageWrite idx w { s with pending := q }) → StepCase s t
  | reset (q : List Stimulus) : s.pending = .rst :: q → t = hardReset { s with pending := q } → StepCase s t
  | wire (bytes rest : List Byte) (q : List Stimulus) (i : Instr) : s.pending = .wire bytes :: q →
      decodeWire bytes = .ok (i, rest) → KeepsHistory (requeue rest { s with pending := q }) t → StepCase s t
  | ignored (code : BitVec 2) (p : Ports) (q : List Stimulus) : s.pending = .op code p :: q → s.busy = true →
      t = { s with pending := q } → StepCase s t
  | nop (p : Ports) (q : List Stimulus) : s.pending = .op 0 p :: q → s.busy = false →
      t = finish .done (accept p { s with pending := q }) → StepCase s t
  | init (p : Ports) (q : List Stimulus) : s.pending = .op 1 p :: q → s.busy = false →
      t = initOp (accept p { s with pending := q }) → StepCase s t
  | frame (p : Ports) (q : List Stimulus) : s.pending = .op 2 p :: q → s.busy = false →
      strayLayout (accept p { s with pending := q }) = false →
      t = frameOp (accept p { s with pending := q }) → StepCase s t
  | alloff (p : Ports) (q : List Stimulus) : s.pending = .op 3 p :: q → s.busy = false →
      t = allOffOp (accept p { s with pending := q }) → StepCase s t

/-- A step that answers a next state is one of the nine cases. -/
theorem step_cases {s t : State} (h : step s = .next t) : StepCase s t := by
  cases hp : s.pending with
  | nil => simp only [step, hp] at h; cases h; exact .idle hp rfl
  | cons x q =>
    simp only [step, hp] at h
    cases x with
    | stage idx w => cases h; exact .staged idx w q hp rfl
    | rst => cases h; exact .reset q hp rfl
    | wire bytes =>
      simp only [act, present, decode] at h
      split at h
      · rename_i i rest hd
        exact .wire bytes rest q i hp hd (wire_keepsHistory (decodeWire_isWire hd) h)
      · cases h
    | op code p =>
      simp only [act, request] at h
      split at h
      · rename_i hb; cases h; exact .ignored code p q hp hb rfl
      · rename_i hb
        have hb : s.busy = false := by simpa using hb
        rcases opCode_cases code with rfl | rfl | rfl | rfl
        · cases h; exact .nop p q hp hb rfl
        · cases h; exact .init p q hp hb rfl
        · simp only [show decodePort 2 = .frame from rfl, exec, execFrame] at h
          split at h
          · cases h
          · rename_i hs; cases h; exact .frame p q hp hb (by simpa using hs) rfl
        · cases h; exact .alloff p q hp hb rfl

end Sys2Proof.Machine
end

