-- ==== Sys2Proof/Tests/Slice0.lean ====
section
/-! SUPPORT. Tests of the model on words and traces written out from the spec's rules and examples, and for every
statement with hypotheses a concrete input that meets them. -/

namespace Sys2Proof.Tests

open Sys2Proof Sys2Proof.Machine

/-! A small block: 64 channels, `WIRE_VALUE` the identity. -/

def par : Params := { maxChannels := 64, chW := 7, wire := [], settleDelay := 3 }

/-- Input levels that pass every guard, with a host buffer. -/
def ports (src : List Byte) : Ports :=
  { en := true, tpPresent := true, ok := true, txEmpty := true
    opStart := 0, opSrcLen := src.length, cfgCount := 1, src := src }

/-- The block right after an `INIT` with the table, before its first frame. -/
def block (cfg : List Descriptor) (src : List Byte) : State :=
  { State.reset with
    par := par, cfg := cfg, total := effTotal cfg, occ := occupancy cfg, ports := ports src }

def normal (unit : Byte) (n : Nat) : Descriptor := { dtype := .ac, unitId := unit, chanCount := n, amode := .normal }

def legacy (unit : Byte) (n : Nat) : Descriptor := { dtype := .rgb, unitId := unit, chanCount := n, amode := .legacy }

def traceOf (o : Host.Outcome State Fault Refusal) : List Event :=
  match o with
  | .next s => s.trace
  | .fault _ => []
  | .refused _ => []

def bufOf (o : Host.Outcome State Fault Refusal) : List Byte :=
  match o with
  | .next s => s.cmdbuf
  | .fault _ => []
  | .refused _ => []

def refusalOf (o : Host.Outcome State Fault Refusal) : Option Refusal :=
  match o with
  | .next _ => none
  | .fault _ => none
  | .refused r => some r

/-- A next state with a property. -/
def nextIs (f : State → Bool) (o : Host.Outcome State Fault Refusal) : Bool :=
  match o with
  | .next s => f s
  | .fault _ => false
  | .refused _ => false

/-! Ill-formed terms, one for each check. -/

theorem test_wf_unit_zero : (Instr.offb0 0x00).wf = false := by decide
theorem test_wf_unit_ff : (Instr.offb0 0xFF).wf = false := by decide
theorem test_wf_bank_zero : (Instr.offbn 0x07 0).wf = false := by decide
theorem test_wf_lsb_zero : (Instr.setlm0 0x07 0x80 0x00 0x01).wf = false := by decide
theorem test_wf_msb_zero : (Instr.onlmn 0x07 3 0x01 0x00).wf = false := by decide
theorem test_wf_val_any : (Instr.setlmn 0xFE 0x00 63 0x01 0x80).wf = true := by decide

/-! Every constructor's encoding, written out from R63, R65, R67, R80 and the examples of R141 to R155. -/

theorem test_decode_onl0 : decodeTableWord 32 0x000711A5 = some (.onl0 0x07 0xA5) := by decide
theorem test_decode_onm0 : decodeTableWord 32 0x00072181 = some (.onm0 0x07 0x81) := by decide
theorem test_decode_onlm0 : decodeWire [0x00, 0x01, 0x31, 0xFF, 0x7F] = .ok (.onlm0 0x01 0xFF 0x7F, []) := by decide
theorem test_decode_setl0 : decodeWire [0x00, 0x01, 0x13, 0x80, 0x08] = .ok (.setl0 0x01 0x80 0x08, []) := by decide
theorem test_decode_setm0 : decodeWire [0x00, 0x01, 0x23, 0x40, 0x80] = .ok (.setm0 0x01 0x40 0x80, []) := by decide
theorem test_decode_setlm0 :
    decodeTableWord 48 0x00013300F7FF = some (.setlm0 0x01 0x00 0xF7 0xFF) := by decide
theorem test_decode_offb0 : decodeTableWord 24 0x000741 = some (.offb0 0x07) := by decide
theorem test_decode_onlmn :
    decodeWire [0x00, 0x07, 0x51, 0x03, 0x34, 0x12] = .ok (.onlmn 0x07 3 0x34 0x12, []) := by decide
theorem test_decode_onln : decodeWire [0x00, 0x07, 0x51, 0x43, 0x34] = .ok (.onln 0x07 3 0x34, []) := by decide
theorem test_decode_onmn : decodeWire [0x00, 0x07, 0x51, 0x83, 0x12] = .ok (.onmn 0x07 3 0x12, []) := by decide
theorem test_decode_offbn : decodeTableWord 32 0x000751FF = some (.offbn 0x07 63) := by decide
theorem test_decode_setlmn :
    decodeWire [0x00, 0x07, 0x53, 0x20, 0x03, 0x34, 0x12] = .ok (.setlmn 0x07 0x20 3 0x34 0x12, []) := by decide
theorem test_decode_setln :
    decodeWire [0x00, 0x07, 0x53, 0x20, 0x41, 0x01] = .ok (.setln 0x07 0x20 1 0x01, []) := by decide
theorem test_decode_setmn :
    decodeWire [0x00, 0x07, 0x53, 0x20, 0xBF, 0x01] = .ok (.setmn 0x07 0x20 63 0x01, []) := by decide
theorem test_decode_end : decodeTableWord 16 0x0000 = some .endWrite := by decide
theorem test_decode_nop : decodeTableWord 2 0 = some .nop := by decide
theorem test_decode_init : decodeTableWord 2 1 = some .init := by decide
theorem test_decode_frame : decodeTableWord 2 2 = some .frame := by decide
theorem test_decode_alloff : decodeTableWord 2 3 = some .alloff := by decide

/-! What R73 and R74 have the decoder reject. -/

theorem test_reject_opcode : decodeWrite [0x00, 0x07, 0x61, 0x01, 0x00, 0x00] = .error .opcode := by decide
theorem test_reject_zero_mask : decodeWrite [0x00, 0x07, 0x11, 0x00, 0x00, 0x00] = .error .zeroMask := by decide
theorem test_reject_bank_zero : decodeWrite [0x00, 0x07, 0x51, 0xC0, 0x00, 0x00] = .error .bankZero := by decide
theorem test_reject_set_whole : decodeWrite [0x00, 0x07, 0x53, 0x20, 0xC1, 0x00, 0x00] = .error .setWhole := by decide
theorem test_reject_trailing : decodeWrite [0x00, 0x00, 0x41] = .error .trailing := by decide
theorem test_reject_no_end : decodeWrite [0x00, 0x07, 0x41] = .error .truncated := by decide

/-! One step for each instruction. -/

theorem test_step_onl0 : bufOf (step ((block [] []).withFetchWord 32 0x000711A5)) = [0x00, 0x07, 0x11, 0xA5] := by decide
theorem test_step_onm0 : bufOf (step ((block [] []).withFetchWord 32 0x00072181)) = [0x00, 0x07, 0x21, 0x81] := by decide
theorem test_step_onlm0 :
    bufOf (step ((block [] []).withFetchWord 40 0x000131FF7F)) = [0x00, 0x01, 0x31, 0xFF, 0x7F] := by decide
theorem test_step_setl0 :
    bufOf (step ((block [] []).withFetchWord 40 0x0001138008)) = [0x00, 0x01, 0x13, 0x80, 0x08] := by decide
theorem test_step_setm0 :
    bufOf (step ((block [] []).withFetchWord 40 0x0001234080)) = [0x00, 0x01, 0x23, 0x40, 0x80] := by decide
theorem test_step_setlm0 :
    bufOf (step ((block [] []).withFetchWord 48 0x00013300F7FF)) = [0x00, 0x01, 0x33, 0x00, 0xF7, 0xFF] := by decide
theorem test_step_offb0 : bufOf (step ((block [] []).withFetchWord 24 0x000741)) = [0x00, 0x07, 0x41] := by decide
theorem test_step_onlmn :
    bufOf (step ((block [] []).withFetchWord 48 0x000751033412)) = [0x00, 0x07, 0x51, 0x03, 0x34, 0x12] := by decide
theorem test_step_onln :
    bufOf (step ((block [] []).withFetchWord 40 0x0007514334)) = [0x00, 0x07, 0x51, 0x43, 0x34] := by decide
theorem test_step_onmn :
    bufOf (step ((block [] []).withFetchWord 40 0x0007518312)) = [0x00, 0x07, 0x51, 0x83, 0x12] := by decide
theorem test_step_offbn : bufOf (step ((block [] []).withFetchWord 32 0x000751C1)) = [0x00, 0x07, 0x51, 0xC1] := by decide
theorem test_step_setlmn :
    bufOf (step ((block [] []).withFetchWord 56 0x00075320033412)) = [0x00, 0x07, 0x53, 0x20, 0x03, 0x34, 0x12] := by
  decide
theorem test_step_setln :
    bufOf (step ((block [] []).withFetchWord 48 0x000753204101)) = [0x00, 0x07, 0x53, 0x20, 0x41, 0x01] := by decide
theorem test_step_setmn :
    bufOf (step ((block [] []).withFetchWord 48 0x000753208101)) = [0x00, 0x07, 0x53, 0x20, 0x81, 0x01] := by decide

/-- R155's example: the complete write for unit 1, one all-zero bank 0. -/
theorem test_step_end :
    traceOf (step ({ block [] [] with cmdbuf := [0x00, 0x01, 0x41] }.withFetchWord 16 0)) =
      [.txWrite [0x00, 0x01, 0x41, 0x00, 0x00]] := by decide

theorem test_step_nop : traceOf (step ((block [] []).withFetchWord 2 0)) = [.done .done] := by decide

/-- The table of R100's example: Pixie4, unit 9, 3 channels a port; CCR, unit 0x20, 6 channels, Split. -/
def exampleTable : List (Nat × Descriptor) :=
  [(0, { dtype := .pixie4, unitId := 9, chanCount := 3, amode := .normal }),
   (1, { dtype := .ccr, unitId := 0x20, chanCount := 6, amode := .split })]

def beforeInit (table : List (Nat × Descriptor)) : State :=
  { block [] [] with staged := table, ports := { ports [] with cfgCount := table.length } }

/-- R100: `TOTAL` is 18, and `OCC` is 1 at 0, 9 to 12, 32 and 33. -/
theorem test_init_total_and_occ :
    nextIs (fun t => t.total == 18 && t.trace == [.done .done] &&
        (List.range 255).filter (fun u => t.occ.getLsbD u) == [0, 9, 10, 11, 12, 32, 33])
      (exec .init (beforeInit exampleTable)) = true := by decide

/-- R203: unit 0 is `UNIT_RANGE`, code 3. -/
theorem test_init_unit_range :
    nextIs (fun t => t.faultReg == 3 && t.trace == [.done .faulted])
      (exec .init (beforeInit [(0, normal 0 4)])) = true := by decide

/-- R121's example: channel 3 of sixteen at 0x80, the others 0. -/
theorem test_frame_zero_group :
    traceOf (exec .frame (block [normal 1 16] [0, 0, 0, 0x80, 0, 0, 0, 0, 0, 0, 0, 0, 0, 0, 0, 0])) =
      [.txWrite [0x00, 0x01, 0x33, 0x00, 0xF7, 0xFF, 0x00, 0x01, 0x13, 0x80, 0x08, 0x00, 0x00], .done .done] := by
  decide

/-- R118, R120: two banks, the higher one first; R123's example in bank 0. -/
theorem test_frame_bank_order :
    traceOf (exec .frame (block [normal 1 17]
        [0x20, 0x10, 0x10, 0x10, 0x10, 0x10, 0x10, 0x10, 0x10, 0x10, 0x10, 0x10, 0x10, 0x10, 0x10, 0x10, 0])) =
      [.txWrite [0x00, 0x01, 0x51, 0xC1, 0x00, 0x01, 0x13, 0x20, 0x01, 0x00, 0x01, 0x33, 0x10, 0xFE, 0xFF, 0x00, 0x00],
       .done .done] := by
  decide

/-- R173's first example: Normal, unit 0x0A, 40 channels. -/
theorem test_alloff_normal :
    traceOf (exec .alloff (block [normal 0x0A 40] [])) =
      [.txWrite [0x00, 0x0A, 0x51, 0xC2, 0x00, 0x0A, 0x51, 0xC1, 0x00, 0x0A, 0x41, 0x00, 0x00],
       .heartbeat, .settle, .done .done] := by decide

/-- R173's second example: Legacy, unit 0x10, 33 channels. -/
theorem test_alloff_legacy :
    traceOf (exec .alloff (block [legacy 0x10 33] [])) =
      [.txWrite [0x00, 0x10, 0x41, 0x00, 0x00], .txWrite [0x00, 0x11, 0x41, 0x00, 0x00],
       .txWrite [0x00, 0x12, 0x41, 0x00, 0x00], .heartbeat, .settle, .done .done] := by decide

/-! For every statement with hypotheses, a concrete input that meets them. -/

/-- One controller of one channel in unit 1, the host's buffer exactly as long as `START + TOTAL`. -/
def one : State := block [normal 1 1] [0x80]

/-- The same after the frame has been sent: `FORCE` clear, the history equal to the buffer. -/
def sent : State := { one with force := false, last := [(0, 0x80)] }

theorem witness_frame_runs : FrameRuns one := by constructor <;> decide

/-- The address check at its bound: `START + TOTAL` is both `SRC_LEN` and `MAX_CHANNELS`. -/
theorem witness_frame_runs_at_bound :
    FrameRuns { one with ports := { one.ports with opStart := 63, opSrcLen := 64 } } := by constructor <;> decide

theorem witness_all_off_runs : AllOffRuns (block [legacy 0xFC 33] []) := by constructor <;> decide

theorem witness_block_inv : BlockInv sent := by constructor <;> decide

theorem witness_DecodeInvertsEncode :
    (Instr.onlmn 0xFE 63 0x01 0xFF).wf = true ∧ (Instr.onlmn 0xFE 63 0x01 0xFF).isWire = true ∧
    Instr.onlmn 0xFE 63 0x01 0xFF ≠ .endWrite ∧ Instr.endWrite.wf = true ∧ Instr.frame.wf = true := by decide

theorem witness_DecodedBytesAreEncodings :
    decodeWire [0x00, 0x07, 0x11, 0xA5, 0x00, 0x00] = .ok (.onl0 0x07 0xA5, [0x00, 0x00]) ∧
    decodeWire [0x00, 0x00] = .ok (.endWrite, []) := by decide

theorem witness_DecodeInvertsGenerator :
    unitOk 0x01 = true ∧ unitOk 0xFE = true ∧ (0x8000 : Mask) ≠ 0 ∧ (0x0001 : Mask) ≠ 0 ∧
    gen 0xFE 63 false 0 0x8000 = gen 0xFE 63 false 1 0x8000 ∧ genOff 0x01 0 = genOff 0x01 0 := by decide

/-- The widest channel count of the staging word, and the narrowest count register. -/
theorem witness_StagingWordHoldsTheDescriptor :
    (127 : Nat) < 2 ^ 7 ∧ (normal 0xFE 127).chanCount < 2 ^ 7 ∧ (0 : Nat) < 2 ^ 0 := by decide

/-- R12, R81: `amode` code 3 reads as Normal, code 2 as Split; unit 0x21, 18 channels, `CH_W` 7. -/
theorem test_staging_amode :
    unpackDescriptor 7 0x99092 = { dtype := .pixie4, unitId := 0x21, chanCount := 18, amode := .normal } ∧
    unpackDescriptor 7 0x11092 = { dtype := .ac, unitId := 0x21, chanCount := 18, amode := .split } := by decide

/-- For `BankZeroCommandsAppendTheirBytes`, `BankedCommandsAppendTheirBytes` and the generic forms. -/
theorem witness_operands :
    unitOk 0xFE = true ∧ bankOk 63 = true ∧ bankOk 1 = true ∧ maskOk 0x01 = true ∧ maskOk 0x80 = true ∧
    (0x8000 : Mask) ≠ 0 := by decide

/-- For the commands' room and for `EndClosesTheWrite`: exactly the four bytes of `ONL0`, exactly the terminator. -/
theorem witness_room :
    ({ one with cmdbuf := List.replicate 8188 0 }).cmdbuf.length + ([0x00, 0x07, 0x11, 0xA5] : List Byte).length
      ≤ Config.cmdBufBytes ∧
    ({ one with cmdbuf := List.replicate 8190 0 }).cmdbuf.length + 2 ≤ Config.cmdBufBytes := by
  simp only [List.length_replicate, List.length_cons, List.length_nil, Config.cmdBufBytes]
  omega

/-- One byte too little room for `ONL0`, and for the terminator. -/
theorem witness_CommandThatDoesNotFitFaults :
    (Instr.onl0 0x07 0xA5).wf = true ∧ Instr.endWrite.wf = true ∧
    Config.cmdBufBytes
      < ({ one with cmdbuf := List.replicate 8189 0 }).cmdbuf.length + (encodeBytes (.onl0 0x07 0xA5)).length ∧
    Config.cmdBufBytes
      < ({ one with cmdbuf := List.replicate 8191 0 }).cmdbuf.length + (encodeBytes .endWrite).length := by
  refine ⟨by decide, by decide, ?_, ?_⟩ <;>
    simp only [List.length_replicate, encodeBytes, List.length_cons, List.length_nil, Config.cmdBufBytes] <;> omega

theorem witness_CommandsRefusedExactlyOutsideDomain :
    (Instr.offbn 0x00 1).isWire = true ∧ (Instr.offbn 0x00 1).wf = false ∧ (Instr.offbn 0xFE 0).wf = false ∧
    (Instr.onl0 0x01 0x00).wf = false ∧ (Instr.offbn 0xFE 1).wf = true := by decide

/-- A write of two commands, presented whole. -/
def presented : State :=
  { one with pending := [.wire [0x00, 0x01, 0x51, 0xC1, 0x00, 0x01, 0x41, 0x00, 0x00], .rst] }

theorem witness_PresentedWriteGoesOutUnchanged :
    decodeWrite [0x00, 0x01, 0x51, 0xC1, 0x00, 0x01, 0x41, 0x00, 0x00] = .ok [.off 0x01 1, .off 0x01 0, .fin] ∧
    ([0x00, 0x01, 0x51, 0xC1, 0x00, 0x01, 0x41, 0x00, 0x00] : List Byte).length ≤ Config.cmdBufBytes ∧
    presented.cmdbuf = [] := by decide

theorem witness_PlanSelectsByTypeAndMode :
    plan { dtype := .pixie8, unitId := 1, chanCount := 12, amode := .legacy } = ⟨96, 12, 8⟩ ∧
    plan (legacy 1 33) = ⟨33, 16, 3⟩ ∧
    plan { dtype := .ccb, unitId := 1, chanCount := 41, amode := .split } = ⟨41, 20, 2⟩ ∧
    plan (normal 1 40) = ⟨40, 40, 1⟩ ∧ plan (normal 1 0) = ⟨0, 0, 0⟩ ∧
    plan { dtype := .malformed, unitId := 1, chanCount := 5, amode := .normal } = ⟨0, 0, 0⟩ := by decide

/-- A middle pass and the last pass of a Legacy controller. -/
theorem witness_LegacyPassesAreSingleBanks :
    pixiePorts (legacy 1 33).dtype = none ∧ (legacy 1 33).dtype ≠ .malformed ∧ (legacy 1 33).amode = .legacy ∧
    (legacy 1 33).chanCount ≠ 0 ∧ 1 + 1 < (plan (legacy 1 33)).npass ∧ 2 + 1 = (plan (legacy 1 33)).npass := by decide

theorem witness_EqualPassesCoverTheController :
    ¬ (pixiePorts DeviceType.pixie4 = none ∧ DeviceType.pixie4 ≠ .malformed ∧ AddrMode.legacy = .legacy) ∧
    ¬ (pixiePorts (normal 1 40).dtype = none ∧ (normal 1 40).dtype ≠ .malformed ∧ (normal 1 40).amode = .legacy) := by
  decide

/-- The last legal unit, and the widest legal pass. -/
theorem witness_LegalPassesHaveLegalUnitsAndBanks :
    controllerFault { dtype := .pixie4, unitId := 251, chanCount := 1024, amode := .normal } = none ∧
    3 < (plan { dtype := .pixie4, unitId := 251, chanCount := 1024, amode := .normal }).npass := by decide

theorem witness_OccupancyMarksConsumedUnits : (254 : Nat) ≤ 254 ∧ (0 : Nat) ≤ 254 := by decide

/-- Each cause of `VALIDATE`, one step past its bound, and a table at the bounds. -/
theorem witness_ValidateReportsFirstFailure :
    validate 64 [normal 1 64, legacy 254 17] = some .unitRange ∧ validate 4096 [normal 0 4] = some .unitRange ∧
    validate 4096 [normal 1 1025, normal 0 1] = some .bankRange ∧ validate 64 [normal 1 65] = some .addrRange ∧
    validate 64 [normal 254 64] = none := by decide

theorem witness_InitLatchesLegalTable :
    validate (beforeInit exampleTable).par.maxChannels (stagedTable (beforeInit exampleTable)) = none := by decide

theorem witness_InitFaultsOnIllegalTable :
    validate (beforeInit [(0, normal 0 4)]).par.maxChannels (stagedTable (beforeInit [(0, normal 0 4)])) =
      some .unitRange ∧
    validate (beforeInit [(0, normal 1 1025)]).par.maxChannels (stagedTable (beforeInit [(0, normal 1 1025)])) =
      some .bankRange ∧
    validate (beforeInit [(0, normal 1 65)]).par.maxChannels (stagedTable (beforeInit [(0, normal 1 65)])) =
      some .addrRange := by decide

theorem witness_StagingChangesOneEntry :
    Sparse.wf Descriptor.zero (beforeInit exampleTable).staged ∧ (beforeInit exampleTable).busy = false ∧
    ({ beforeInit exampleTable with pending := [.stage 1 0x8105] }).pending = [.stage 1 0x8105] := by decide

theorem witness_ResetGivesTheResetValues : ({ sent with pending := [.rst] }).pending = [.rst] := by decide

theorem witness_FrameLockedByFault : ({ one with faultReg := 4 }).faultReg ≠ 0 := by decide

theorem witness_FrameSkipsWhenNotReady :
    one.faultReg = 0 ∧ ({ one.ports with en := false }).en = false ∧
    ({ one.ports with tpPresent := false }).tpPresent = false ∧ ({ one.ports with ok := false }).ok = false := by decide

theorem witness_FrameDroppedForBackpressure :
    one.faultReg = 0 ∧ ({ one.ports with txEmpty := false }).ready = true ∧
    ({ one.ports with txEmpty := false }).txEmpty = false := by decide

/-- One byte too few in the host's buffer; one channel past `MAX_CHANNELS`. -/
theorem witness_FrameFaultsOutOfRange :
    one.faultReg = 0 ∧ one.ports.ready = true ∧ one.ports.txEmpty = true ∧
    ({ one.ports with opSrcLen := 0 }).opSrcLen < one.ports.opStart + one.total ∧
    one.par.maxChannels < ({ one.ports with opStart := 64 }).opStart + one.total := by decide

/-- For `GroupingLoopMatchesValues` and `FrameTransmitsTheDelta`. -/
theorem witness_history_wf : Memory.wf sent.last ∧ Memory.wf [] ∧ sent.last.read 0 = 0x80 := by decide

theorem witness_GroupsPartitionTheBank :
    Memory.wf [] ∧
    (groupPass (fun a => BitVec.ofNat 8 (a % 2)) 0 17 false []).banks[1]? =
      some { groups := [{ val := 0, mask := 1 }], color := false, chg := true } := by decide

theorem witness_UnchangedFrameWritesNothing :
    FrameRuns sent ∧ sent.last.wf ∧ sent.force = false ∧
    ∀ p ∈ framePasses sent, ∀ a, p.holds a → frameSrc sent a = sent.last.read a := by
  refine ⟨by constructor <;> decide, by decide, by decide, ?_⟩
  intro p hp a ha
  have h1 : framePasses sent = [⟨1, 0, 1⟩] := by decide
  rw [h1, List.mem_singleton] at hp
  subst hp
  have : a = 0 := by simp only [PassSpec.holds] at ha; omega
  subst this
  decide

/-- Two passes with a bank (one of 17 channels), and a Split controller of one channel, whose passes hold none. -/
def forced : State :=
  block [legacy 1 17, { dtype := .ccr, unitId := 9, chanCount := 1, amode := .split }] (List.replicate 18 0)

theorem witness_ForcedFrameWritesEveryPass :
    FrameRuns forced ∧ forced.last.wf ∧ forced.force = true ∧
    (framePasses forced).map PassSpec.nb = [1, 1, 0, 0] :=
  ⟨by constructor <;> decide, by decide, by decide, by decide⟩

theorem witness_PassWritesDecodeInDescendingOrder :
    unitOk (⟨1, 0, 17⟩ : PassSpec).unit = true ∧ (⟨1, 0, 17⟩ : PassSpec).nb ≤ 64 ∧
    Event.txWrite [0x00, 0x01, 0x51, 0xC1, 0x00, 0x00] ∈
      passEvents par (fun _ => 0) (fun a => if a = 16 then 0xFF else 0) false ⟨1, 0, 17⟩ := by decide

theorem witness_PassBytesStayBelowCapacity :
    0 < (⟨1, 0, 1024⟩ : PassSpec).nb ∧ 63 < (⟨1, 0, 1024⟩ : PassSpec).nb ∧ (⟨1, 0, 1024⟩ : PassSpec).nb ≤ 64 := by decide

theorem witness_UniformZeroBankIsOneOff :
    1 < (⟨1, 0, 17⟩ : PassSpec).nb ∧ ∀ v ∈ bankValues (fun _ => 0) ⟨1, 0, 17⟩ 1, v = 0x00 := by decide

theorem witness_OnOffBankIsOneOn :
    (∀ v ∈ bankValues (fun a => if a = 15 then 0 else 0xFF) ⟨1, 0, 16⟩ 0, v = 0x00 ∨ v = 0xFF) ∧
    0xFF ∈ bankValues (fun a => if a = 15 then 0 else 0xFF) ⟨1, 0, 16⟩ 0 := by decide

theorem witness_ColourBankCommandOrder :
    ∃ v ∈ bankValues (fun a => BitVec.ofNat 8 a) ⟨1, 0, 16⟩ 0, v ≠ 0x00 ∧ v ≠ 0xFF := by decide

/-- For `FrameLeavesConfigurationAlone` and `FrameClearsForceAtItsEnd`. -/
theorem witness_frame_answers_next : ∃ t, exec .frame one = .next t := ⟨_, rfl⟩

theorem witness_EmptyTableOperations :
    (block [] []).cfg = [] ∧ FrameRuns (block [] []) ∧ AllOffRuns (block [] []) := by
  refine ⟨rfl, ?_, ?_⟩ <;> constructor <;> decide

theorem witness_AllOffGuards :
    ({ one with faultReg := 1 }).faultReg ≠ 0 ∧ one.faultReg = 0 ∧ ({ one.ports with ok := false }).ready = false ∧
    AllOffRuns { one with ports := { one.ports with txEmpty := false } } := by
  refine ⟨by decide, by decide, by decide, ?_⟩
  constructor <;> decide

/-- Both clauses on the passes: a controller that runs, the widest pass, and a pass with no bank. -/
theorem witness_AllOffSwitchesEveryPassOff :
    AllOffRuns (block [legacy 0xFC 33] []) ∧
    unitOk (⟨1, 0, 1024⟩ : PassSpec).unit = true ∧ (⟨1, 0, 1024⟩ : PassSpec).nb = 64 ∧
    unitOk (⟨9, 0, 0⟩ : PassSpec).unit = true ∧ (⟨9, 0, 0⟩ : PassSpec).nb = 0 :=
  ⟨witness_all_off_runs, by decide, by decide, by decide, by decide⟩

theorem witness_AllOffTouchesNoPersistentState :
    (∃ t, exec .alloff one = .next t) ∧ cfgLegal one.cfg := ⟨⟨_, rfl⟩, by decide⟩

/-- A frame, an all-off and the same frame again. -/
theorem witness_SameFrameAfterAllOffWritesNothing :
    ∃ t u, FrameRuns one ∧ one.last.wf ∧ exec .frame one = .next t ∧ exec .alloff t = .next u ∧
      ∀ p ∈ framePasses one, ∀ a, p.holds a → frameSrc u a = frameSrc one a := by
  refine ⟨_, _, witness_frame_runs, by decide, rfl, rfl, ?_⟩
  intro p hp a ha
  have h1 : framePasses one = [⟨1, 0, 1⟩] := by decide
  rw [h1, List.mem_singleton] at hp
  subst hp
  have : a = 0 := by simp only [PassSpec.holds] at ha; omega
  subst this
  rfl

theorem witness_AllOffLegacyThreeBanks :
    (block [legacy 1 33] []).faultReg = 0 ∧ (block [legacy 1 33] []).ports.ready = true ∧
    (block [legacy 1 33] []).cfg = [legacy 1 33] ∧ pixiePorts (legacy 1 33).dtype = none ∧
    (legacy 1 33).dtype ≠ .malformed ∧ (legacy 1 33).amode = .legacy ∧
    33 ≤ (legacy 1 33).chanCount ∧ (legacy 1 48).chanCount ≤ 48 := by decide

/-- A request for a `FRAME`, on an idle block and on a busy one. -/
def requested : State := { sent with pending := [.op 2 sent.ports, .rst] }

/-- For `OperationEndsWithOneDone` and `TraceOnlyGrows` as well. -/
theorem witness_StepRunsRequestedOperation :
    requested.pending = [.op 2 sent.ports, .rst] ∧ requested.busy = false ∧
    decode (.port 2) = .ok (.frame, []) ∧ ∃ t, step requested = .next t :=
  ⟨rfl, rfl, rfl, ⟨_, rfl⟩⟩

theorem witness_StepRunsPresentedCommand :
    decode (.wire [0x00, 0x01, 0x51, 0xC1, 0x00, 0x01, 0x41, 0x00, 0x00]) =
      .ok (.offbn 0x01 1, [0x00, 0x01, 0x41, 0x00, 0x00]) ∧
    presented.pending = [.wire [0x00, 0x01, 0x51, 0xC1, 0x00, 0x01, 0x41, 0x00, 0x00], .rst] := by decide

theorem witness_StepIgnoresRequestsWhileBusy :
    one.pending = [] ∧ ({ requested with busy := true }).busy = true ∧
    ({ requested with busy := true }).pending = [.op 2 sent.ports, .rst] := by decide

theorem witness_InvariantKeptByEveryStep : BlockInv requested ∧ ∃ t, step requested = .next t :=
  ⟨by constructor <;> decide, ⟨_, rfl⟩⟩

theorem witness_StopsOnlyOnInvalidBytes :
    BlockInv requested ∧ nextIsHostAct requested = true ∧
    step { one with pending := [.wire [0x00, 0xFF]] } = .refused (.invalidEncoding .unit) ∧
    presented.pending = [.wire [0x00, 0x01, 0x51, 0xC1, 0x00, 0x01, 0x41, 0x00, 0x00], .rst] ∧
    decode (.wire [0x00, 0x01, 0x51, 0xC1, 0x00, 0x01, 0x41, 0x00, 0x00]) =
      .ok (.offbn 0x01 1, [0x00, 0x01, 0x41, 0x00, 0x00]) :=
  ⟨by constructor <;> decide, rfl, rfl, rfl, rfl⟩

/-- `END` presented by itself with `FAULT` set, on an empty buffer: the model's choices (logs 25 and 26). -/
theorem test_end_by_itself :
    traceOf (exec .endWrite { one with faultReg := 4 }) = [.txWrite [0x00, 0x00]] := by decide

theorem witness_FaultStaysUntilInitOrReset :
    ({ requested with faultReg := 2 }).faultReg ≠ 0 ∧ nextReconfigures { requested with faultReg := 2 } = false ∧
    ∃ t, step { requested with faultReg := 2 } = .next t := ⟨by decide, rfl, ⟨_, rfl⟩⟩

theorem witness_ConfigurationChangesOnlyByInit :
    nextReconfigures requested = false ∧ ∃ t, step requested = .next t := ⟨rfl, ⟨_, rfl⟩⟩

theorem witness_HistoryChangesOnlyByFrameOrInit :
    nextReconfigures presented = false ∧ nextIsFrame presented = false ∧ ∃ t, step presented = .next t :=
  ⟨rfl, rfl, ⟨_, rfl⟩⟩

end Sys2Proof.Tests
end

