-- ==== Sys2Proof/Proofs/LegacyPasses.lean ====
section
/-! The passes of a Legacy controller (R93). -/

namespace Sys2Proof.Machine

/-- The pass indices of a Legacy controller are those whose first channel exists (R93, R101). -/
theorem lt_ceil16_iff {p n : Nat} : p < ceil16 n ↔ 16 * p < n := by
  simp only [ceil16]
  omega

/-- One bank is what holds 1 to 16 channels (R101, R102). -/
theorem ceil16_eq_one_iff {n : Nat} : ceil16 n = 1 ↔ 1 ≤ n ∧ n ≤ 16 := by
  simp only [ceil16]
  omega

section Legacy

variable {d : Descriptor} (hports : pixiePorts d.dtype = none) (htype : d.dtype ≠ .malformed)
  (hmode : d.amode = .legacy) (hcount : d.chanCount ≠ 0)

include hports htype hmode hcount

theorem plan_legacy : plan d = ⟨d.chanCount, 16, ceil16 d.chanCount⟩ := by
  simp [plan, hports, htype, hmode, hcount]

theorem passSpec_legacy (base p : Nat) :
    passSpec d base p =
      ⟨d.unitId + BitVec.ofNat 8 p, base + 16 * p, min 16 (d.chanCount - 16 * p)⟩ := by
  simp [passSpec, plan_legacy hports htype hmode hcount, Nat.mul_comm p 16]

end Legacy

/-- Settles O16: pass `p` holds `min 16 (n - 16 * p)` channels, and a pass index `p` is one with `16 * p < n`. -/
theorem legacyPassesAreSingleBanks : Obligations.LegacyPassesAreSingleBanks := by
  intro d base p hports htype hmode hcount hp
  have hplan := plan_legacy hports htype hmode hcount
  have hstart : 16 * p < d.chanCount := lt_ceil16_iff.1 (by simpa only [hplan] using hp)
  have hnext : p + 1 < (plan d).npass ↔ 16 * (p + 1) < d.chanCount := by rw [hplan, lt_ceil16_iff]
  have hlen : 1 ≤ min 16 (d.chanCount - 16 * p) ∧ min 16 (d.chanCount - 16 * p) ≤ 16 := by omega
  rw [passSpec_legacy hports htype hmode hcount]
  refine ⟨by rw [hplan, ceil16], by rw [hplan], rfl, rfl, ceil16_eq_one_iff.2 hlen, ?full, ?last,
    hlen.1, hlen.2, ?inside⟩
  case full =>
    intro hmore
    have := hnext.1 hmore
    dsimp only
    omega
  case last =>
    intro hlast
    have hend : d.chanCount ≤ 16 * (p + 1) := by
      rw [← not_lt, ← hnext]
      omega
    rw [← hlast, Nat.add_sub_cancel]
    dsimp only
    omega
  case inside =>
    dsimp only
    omega

end Sys2Proof.Machine
end

section
/-! How a `FRAME` ends (R110, R125 to R128, R133, R184) and the all-off shortcut of a bank (R120). -/

namespace Sys2Proof.Machine

/-! The guards. -/

/-- The output is not ready where any of its three levels is low (R126). -/
theorem Ports.ready_eq_false_iff {p : Ports} :
    p.ready = false ↔ p.en = false ∨ p.tpPresent = false ∨ p.ok = false := by
  simp only [Ports.ready, Bool.and_eq_false_iff, or_assoc]

/-- A layout is stray only past the guards (log 14). -/
theorem strayLayout_of_guarded {s : State}
    (h : s.faultReg ≠ 0 ∨ s.ports.ready = false ∨ s.ports.txEmpty = false) : strayLayout s = false := by
  rcases h with hfault | hready | hempty
  · rw [strayLayout, decide_eq_false hfault]
    simp
  · simp [strayLayout, hready]
  · simp [strayLayout, hempty]

/-- `FRAME` answers a next state where its layout is not stray, and then `frameOp` gives it. -/
theorem exec_frame_eq_next {s t : State} :
    exec .frame s = .next t ↔ strayLayout s = false ∧ frameOp s = t := by
  simp only [exec, execFrame]
  cases strayLayout s <;> simp

section Guards

variable {s : State}

theorem frameOp_of_fault (hfault : s.faultReg ≠ 0) : frameOp s = finish .faulted s := if_pos hfault

theorem frameOp_of_not_ready (hfault : s.faultReg = 0) (hready : s.ports.ready = false) :
    frameOp s = finish .skipNotReady s := by simp [frameOp, hfault, hready]

theorem frameOp_of_not_txEmpty (hfault : s.faultReg = 0) (hready : s.ports.ready = true)
    (hempty : s.ports.txEmpty = false) :
    frameOp s = finish .skipBackpressure (output (.log .backpressure) s) := by
  simp [frameOp, hfault, hready, hempty]

theorem frameOp_of_outOfRange (hfault : s.faultReg = 0) (hready : s.ports.ready = true)
    (hempty : s.ports.txEmpty = true) (hrange : frameOutOfRange s = true) :
    frameOp s = raise .addrRange s := by simp [frameOp, hfault, hready, hempty, hrange]

theorem frameOp_of_guards_pass (hfault : s.faultReg = 0) (hready : s.ports.ready = true)
    (hempty : s.ports.txEmpty = true) (hrange : frameOutOfRange s = false) :
    frameOp s = frameBody s := by simp [frameOp, hfault, hready, hempty, hrange]

end Guards

/-- Settles O27: the fault lock is the first guard. -/
theorem frameLockedByFault : Obligations.FrameLockedByFault := by
  intro s hfault
  exact exec_frame_eq_next.2 ⟨strayLayout_of_guarded (.inl hfault), frameOp_of_fault hfault⟩

/-- Settles O28: the levels are tested behind the fault lock. -/
theorem frameSkipsWhenNotReady : Obligations.FrameSkipsWhenNotReady := by
  intro s hfault hlow
  have hready : s.ports.ready = false := Ports.ready_eq_false_iff.2 hlow
  exact exec_frame_eq_next.2
    ⟨strayLayout_of_guarded (.inr (.inl hready)), frameOp_of_not_ready hfault hready⟩

/-- Settles O29: `tx_empty` is tested last of the guards, and the `Log` comes before the `Done`. -/
theorem frameDroppedForBackpressure : Obligations.FrameDroppedForBackpressure := by
  intro s hfault hready hempty
  refine exec_frame_eq_next.2 ⟨strayLayout_of_guarded (.inr (.inr hempty)), ?_⟩
  rw [frameOp_of_not_txEmpty hfault hready hempty]
  simp [finish, output]

/-! The end of the body: only the fault entry ends a part of it early. -/

/-- A flow from `s` either goes on or stands at the fault entry taken from a state it came to, with the frame of a
pass kept up to there (R184 (2)). -/
def Flow.EndsByRaise (s : State) : Flow → Prop
  | .on t => PassFrame s t
  | .ended t => ∃ (c : Cause) (u : State), PassFrame s u ∧ t = raise c u

theorem Flow.EndsByRaise.after {s t : State} {x : Flow} (hst : PassFrame s t) (hx : x.EndsByRaise t) :
    x.EndsByRaise s := by
  cases x with
  | on u => exact hst.trans hx
  | ended u =>
    obtain ⟨c, v, htv, rfl⟩ := hx
    exact ⟨c, v, hst.trans htv, rfl⟩

theorem Flow.EndsByRaise.andThen {s : State} {x : Flow} {f : State → Flow} (hx : x.EndsByRaise s)
    (hf : ∀ t, (f t).EndsByRaise t) : (x.andThen f).EndsByRaise s := by
  cases x with
  | on t => exact .after hx (hf t)
  | ended t => exact hx

theorem runEach_endsByRaise {α : Type} {f : α → State → Flow} (hf : ∀ a s, (f a s).EndsByRaise s) (as : List α)
    (s : State) : (runEach f as s).EndsByRaise s := by
  induction as generalizing s with
  | nil => exact PassFrame.refl s
  | cons a as ih => exact (hf a s).andThen ih

theorem emit_endsByRaise (bytes : List Byte) (s : State) : (emit bytes s).EndsByRaise s := by
  by_cases h : s.cmdbuf.length + bytes.length ≤ Config.cmdBufBytes
  · have hframe := emit_passFrame bytes s
    rw [emit_of_fits h] at hframe ⊢
    exact hframe
  · rw [emit_of_full (by omega)]
    exact ⟨.capacity, s, .refl s, rfl⟩

theorem txWrite_passFrame (s : State) : PassFrame s (txWrite s) :=
  ⟨rfl, rfl, rfl, rfl, rfl, rfl, rfl, rfl, rfl, rfl, [.txWrite s.cmdbuf], by simp [txWrite]⟩

theorem closePass_endsByRaise (s : State) : (closePass s).EndsByRaise s :=
  (emit_endsByRaise terminator s).andThen txWrite_passFrame

theorem beginPass_passFrame (p : PassSpec) (s : State) : PassFrame s (beginPass p s) :=
  ⟨rfl, rfl, rfl, rfl, rfl, rfl, rfl, rfl, rfl, rfl, [], by simp⟩

theorem writePass_endsByRaise (banks : List Bank) (s : State) : (writePass banks s).EndsByRaise s := by
  unfold writePass
  split
  · exact closePass_endsByRaise s
  · exact PassFrame.refl s

/-- Only `CAPACITY` in `Emit` ends a pass of `FRAME` (R116, R128). -/
theorem encodePass_endsByRaise (p : PassSpec) (s : State) : (encodePass p s).EndsByRaise s :=
  .andThen (.after (beginPass_passFrame p s) (runEach_endsByRaise emit_endsByRaise _ _)) (writePass_endsByRaise _)

/-- The body of `FRAME` runs to its end, or a fault entry ends it (R110, R125, R184). -/
theorem frameBody_cases (s : State) :
    ∃ u, PassFrame (startFrame s) u ∧ (frameBody s = endFrame u ∨ ∃ c, frameBody s = raise c u) := by
  have hrun := runEach_endsByRaise encodePass_endsByRaise (layout s.ports.opStart s.cfg) (startFrame s)
  unfold frameBody
  cases hr : runEach encodePass (layout s.ports.opStart s.cfg) (startFrame s) with
  | on u =>
    rw [hr] at hrun
    exact ⟨u, hrun, .inl rfl⟩
  | ended t =>
    rw [hr] at hrun
    obtain ⟨c, u, hframe, rfl⟩ := hrun
    exact ⟨u, hframe, .inr ⟨c, rfl⟩⟩

/-! `FORCE` at the end of an operation (R125). -/

/-- An operation begun in `s` is over in `t`: the last event is `Done(st)`, and `FORCE` is cleared where `st` is
`DONE` and as it was where it is not. -/
def EndsJudgingForce (s t : State) : Prop :=
  ∃ (evs : List Event) (st : Status), t.trace = s.trace ++ evs ++ [.done st] ∧
    (st = .done → t.force = false) ∧ (st ≠ .done → t.force = s.force)

theorem finish_endsJudgingForce {s u : State} {st : Status} (hst : st ≠ .done) (hframe : PassFrame s u) :
    EndsJudgingForce s (finish st u) := by
  obtain ⟨evs, htrace, -, -⟩ := hframe.trace
  exact ⟨evs, st, by rw [finish_trace, htrace], (absurd · hst), fun _ => hframe.force⟩

theorem raise_endsJudgingForce {s u : State} (c : Cause) (hframe : PassFrame s u) :
    EndsJudgingForce s (raise c u) := by
  obtain ⟨evs, htrace, -, -⟩ := hframe.trace
  exact ⟨evs, .faulted, by rw [raise_trace, htrace], nofun, fun _ => hframe.force⟩

theorem endFrame_endsJudgingForce {s u : State} (hframe : PassFrame s u) : EndsJudgingForce s (endFrame u) := by
  obtain ⟨evs, htrace, -, -⟩ := hframe.trace
  exact ⟨evs, .done, by rw [endFrame_trace, htrace], fun _ => rfl, (absurd rfl ·)⟩

theorem log_passFrame (r : LogReason) (s : State) : PassFrame s (output (.log r) s) :=
  ⟨rfl, rfl, rfl, rfl, rfl, rfl, rfl, rfl, rfl, rfl, [.log r], by simp⟩

/-- The body judges `FORCE` by the state it starts from, whose trace and `FORCE` are those of `s`. -/
theorem frameBody_endsJudgingForce (s : State) : EndsJudgingForce s (frameBody s) := by
  obtain ⟨u, hframe, hend | ⟨c, hraise⟩⟩ := frameBody_cases s
  · rw [hend]
    exact endFrame_endsJudgingForce (s := startFrame s) hframe
  · rw [hraise]
    exact raise_endsJudgingForce (s := startFrame s) c hframe

/-- Settles O42, by the guards of `FRAME` in their order and then by how its body ends. -/
theorem frameClearsForceAtItsEnd : Obligations.FrameClearsForceAtItsEnd := by
  intro s t hexec
  obtain ⟨-, rfl⟩ := exec_frame_eq_next.1 hexec
  change EndsJudgingForce s (frameOp s)
  by_cases hfault : s.faultReg = 0
  case neg =>
    rw [frameOp_of_fault hfault]
    exact finish_endsJudgingForce nofun (.refl s)
  cases hready : s.ports.ready with
  | false =>
    rw [frameOp_of_not_ready hfault hready]
    exact finish_endsJudgingForce nofun (.refl s)
  | true =>
    cases hempty : s.ports.txEmpty with
    | false =>
      rw [frameOp_of_not_txEmpty hfault hready hempty]
      exact finish_endsJudgingForce nofun (log_passFrame _ s)
    | true =>
      cases hrange : frameOutOfRange s with
      | true =>
        rw [frameOp_of_outOfRange hfault hready hempty hrange]
        exact raise_endsJudgingForce _ (.refl s)
      | false =>
        rw [frameOp_of_guards_pass hfault hready hempty hrange]
        exact frameBody_endsJudgingForce s

/-! The all-off shortcut (R120). -/

/-- A bank of the pass has a channel, so it has a value (R46, R102). -/
theorem bankValues_ne_nil_iff {src : Nat → Byte} {p : PassSpec} {b : Nat} :
    bankValues src p b ≠ [] ↔ b < p.nb := by
  rw [← List.length_pos_iff, bankValues_length, PassSpec.nb, lt_ceil16_iff]
  omega

/-- Values that are all `v` have the one distinct value `v` (R113). -/
theorem distinct_of_uniform {v : Byte} {vals : List Byte} (hne : vals ≠ []) (huniform : ∀ w ∈ vals, w = v) :
    distinct vals = [v] := by
  cases vals with
  | nil => exact absurd rfl hne
  | cons w ws =>
    obtain rfl : w = v := huniform w List.mem_cons_self
    have hrest : (distinct ws).filter (· != w) = [] :=
      List.filter_eq_nil_iff.2 fun x hx => by
        simp [huniform x (List.mem_cons_of_mem _ (mem_distinct.1 hx))]
    rw [distinct, hrest]

/-- Settles O38: a bank of the pass has a value, so the one distinct value of an all-zero bank is 0, which is the
condition of the shortcut. -/
theorem uniformZeroBankIsOneOff : Obligations.UniformZeroBankIsOneOff := by
  intro par src old force p b hb hzero
  have hone : (bankOf src old force p b).groups.map (·.val) = [0x00] := by
    rw [bankOf_groups, groupsOf_vals]
    exact distinct_of_uniform (bankValues_ne_nil_iff.2 hb) hzero
  rw [bankCommands, if_pos hone]

end Sys2Proof.Machine
end

section
/-! The reference decoder inverts the Command Byte Generator (R74, R157 to R160). The generic forms of R75 link the
two: the generator gives the bytes of a form, the decoder gives its record, and a record holds the operands. -/

namespace Sys2Proof.Machine

/-! One command in front of further bytes. -/

/-- A well-formed wire command other than the terminator is read back from its bytes (R63, R65, R72). -/
theorem decodeWire_encodeBytes {i : Instr} (hwire : i.isWire = true) (hend : i ≠ .endWrite) (hwf : i.wf = true)
    (rest : List Byte) : decodeWire (encodeBytes i ++ rest) = .ok (i, rest) := by
  cases i <;> simp only [Instr.wf, Bool.and_eq_true] at hwf
  case endWrite => exact absurd rfl hend
  case nop | init | frame | alloff => cases hwire
  case offb0 u => exact decodeWire_header hwf _ _
  case onl0 u l | onm0 u m =>
    obtain ⟨hu, hmask⟩ := hwf
    exact (decodeWire_header hu _ _).trans (oneMask_cons hmask rest)
  case setl0 u v l | setm0 u v m =>
    obtain ⟨hu, hmask⟩ := hwf
    exact (decodeWire_header hu _ _).trans (oneMask_cons hmask rest)
  case onlm0 u l m =>
    obtain ⟨⟨hu, hl⟩, hm⟩ := hwf
    exact (decodeWire_header hu _ _).trans (twoMasks_cons hl hm rest)
  case setlm0 u v l m =>
    obtain ⟨⟨hu, hl⟩, hm⟩ := hwf
    exact (decodeWire_header hu _ _).trans (twoMasks_cons hl hm rest)
  case offbn u b =>
    obtain ⟨hu, hb⟩ := hwf
    exact (decodeWire_header hu _ _).trans ((decodeOp_banked u _).trans (withBank_whole hb rfl rest))
  case onln u b l =>
    obtain ⟨⟨hu, hb⟩, hl⟩ := hwf
    exact (decodeWire_header hu _ _).trans ((decodeOp_banked u _).trans (withBank_lsb hb hl rest))
  case setln u v b l =>
    obtain ⟨⟨hu, hb⟩, hl⟩ := hwf
    exact (decodeWire_header hu _ _).trans ((decodeOp_banked_val u v _).trans (withBank_lsb hb hl rest))
  case onmn u b m =>
    obtain ⟨⟨hu, hb⟩, hm⟩ := hwf
    exact (decodeWire_header hu _ _).trans ((decodeOp_banked u _).trans (withBank_msb hb hm rest))
  case setmn u v b m =>
    obtain ⟨⟨hu, hb⟩, hm⟩ := hwf
    exact (decodeWire_header hu _ _).trans ((decodeOp_banked_val u v _).trans (withBank_msb hb hm rest))
  case onlmn u b l m =>
    obtain ⟨⟨⟨hu, hb⟩, hl⟩, hm⟩ := hwf
    exact (decodeWire_header hu _ _).trans ((decodeOp_banked u _).trans (withBank_both hb hl hm rest))
  case setlmn u v b l m =>
    obtain ⟨⟨⟨hu, hb⟩, hl⟩, hm⟩ := hwf
    exact (decodeWire_header hu _ _).trans ((decodeOp_banked_val u v _).trans (withBank_both hb hl hm rest))

/-! The loop of `Decode`. -/

/-- Any fuel decodes the bare terminator. -/
theorem decodeWriteLoop_terminator (n : Nat) : decodeWriteLoop (n + 1) terminator = .ok [.fin] := rfl

/-- A command in front of bytes that decode puts its record in front of theirs (R74). -/
theorem decodeWriteLoop_command {i : Instr} (hwire : i.isWire = true) (hend : i ≠ .endWrite) (hwf : i.wf = true)
    {n : Nat} {rest : List Byte} {rs : List Record} (hrest : decodeWriteLoop n rest = .ok rs) :
    decodeWriteLoop (n + 1) (encodeBytes i ++ rest) = .ok (i.record.toList ++ rs) := by
  simp only [decodeWriteLoop, decodeWire_encodeBytes hwire hend hwf, if_neg hend, hrest]

/-- Only a wire command has a record (R74). -/
theorem isWire_of_record {i : Instr} {r : Record} (hrec : i.record = some r) : i.isWire = true := by
  cases i
  case nop | init | frame | alloff => cases hrec
  all_goals rfl

/-- A write of one well-formed command decodes to that command's record (R74). -/
theorem decodeWrite_command {i : Instr} {r : Record} (hwf : i.wf = true) (hrec : i.record = some r)
    (hfin : r ≠ .fin) : decodeWrite (encodeBytes i ++ terminator) = .ok [r, .fin] := by
  have hend : i ≠ .endWrite := by
    rintro rfl
    exact hfin (Option.some.inj hrec).symm
  have hfuel : (encodeBytes i ++ terminator).length = (encodeBytes i).length + 1 + 1 := by
    rw [List.length_append]
    rfl
  rw [decodeWrite, hfuel,
    decodeWriteLoop_command (isWire_of_record hrec) hend hwf (decodeWriteLoop_terminator _), hrec]
  rfl

/-! The generic forms of R75. -/

/-- A mask byte that is zero is left out on the wire, so a mask that is not zero has three shapes (R66, R158). -/
theorem mask_shape {m : Mask} (h : m ≠ 0) :
    maskLsb m ≠ 0 ∧ maskMsb m = 0 ∨ maskLsb m = 0 ∧ maskMsb m ≠ 0 ∨ maskLsb m ≠ 0 ∧ maskMsb m ≠ 0 := by
  have := mask_bytes_ne_zero h
  tauto

/-- A mask without a high byte is its low byte (R69). -/
theorem joinMask_lsb {m : Mask} (h : maskMsb m = 0) : joinMask (maskLsb m) 0 = m := by
  rw [← h, joinMask_bytes]

/-- A mask without a low byte is its high byte (R69). -/
theorem joinMask_msb {m : Mask} (h : maskLsb m = 0) : joinMask 0 (maskMsb m) = m := by
  rw [← h, joinMask_bytes]

/-! Each form is one of six commands, or of two for `OFF`, by whether the bank is 0 and by the shape of the mask. -/

section Forms

variable {u v : Byte} {b : BankIx} {m : Mask}

@[simp] theorem record_onForm : (onForm u b m).record = some (.on u b m) := by
  unfold onForm
  split_ifs <;> simp only [Instr.record, joinMask_bytes, joinMask_lsb, joinMask_msb, *]

@[simp] theorem record_setForm : (setForm u b v m).record = some (.set u b v m) := by
  unfold setForm
  split_ifs <;> simp only [Instr.record, joinMask_bytes, joinMask_lsb, joinMask_msb, *]

@[simp] theorem record_offForm : (offForm u b).record = some (.off u b) := by
  unfold offForm
  split_ifs <;> simp only [Instr.record, *]

theorem wf_onForm (hu : unitOk u = true) (hm : m ≠ 0) : (onForm u b m).wf = true := by
  by_cases hb : b = 0 <;> rcases mask_shape hm with ⟨hl, hh⟩ | ⟨hl, hh⟩ | ⟨hl, hh⟩ <;>
    simp only [onForm, Instr.wf, Bool.and_eq_true, bankOk_iff, maskOk_iff, hu, hb, hl, hh, reduceIte,
      ne_eq, not_false_eq_true, and_self]

theorem wf_setForm (hu : unitOk u = true) (hm : m ≠ 0) : (setForm u b v m).wf = true := by
  by_cases hb : b = 0 <;> rcases mask_shape hm with ⟨hl, hh⟩ | ⟨hl, hh⟩ | ⟨hl, hh⟩ <;>
    simp only [setForm, Instr.wf, Bool.and_eq_true, bankOk_iff, maskOk_iff, hu, hb, hl, hh, reduceIte,
      ne_eq, not_false_eq_true, and_self]

theorem wf_offForm (hu : unitOk u = true) : (offForm u b).wf = true := by
  by_cases hb : b = 0 <;>
    simp only [offForm, Instr.wf, Bool.and_eq_true, bankOk_iff, hu, hb, reduceIte, ne_eq, not_false_eq_true,
      and_self]

/-- `GenON` gives the bytes of the form `ON` (R158). -/
theorem encodeBytes_onForm (hm : m ≠ 0) : encodeBytes (onForm u b m) = genOn u b m := by
  by_cases hb : b = 0 <;> rcases mask_shape hm with ⟨hl, hh⟩ | ⟨hl, hh⟩ | ⟨hl, hh⟩ <;>
    simp only [onForm, genOn, gen, opcodeB0, withVb, maskBytes, genBankByte_eq, encodeBytes, hb, hl, hh,
      reduceIte, ne_eq, not_true_eq_false, not_false_eq_true] <;>
    rfl

/-- `GenSET` gives the bytes of the form `SET` (R158). -/
theorem encodeBytes_setForm (hm : m ≠ 0) : encodeBytes (setForm u b v m) = genSet u b v m := by
  by_cases hb : b = 0 <;> rcases mask_shape hm with ⟨hl, hh⟩ | ⟨hl, hh⟩ | ⟨hl, hh⟩ <;>
    simp only [setForm, genSet, gen, opcodeB0, withVb, maskBytes, genBankByte_eq, encodeBytes, hb, hl, hh,
      reduceIte, ne_eq, not_true_eq_false, not_false_eq_true] <;>
    rfl

/-- `GenOFF` gives the bytes of the form `OFF` (R159). -/
theorem encodeBytes_offForm : encodeBytes (offForm u b) = genOff u b := by
  by_cases hb : b = 0 <;> simp only [offForm, genOff, encodeBytes, bankByte_literal, hb, reduceIte]

/-! The generator's bytes decode to the record of its operands. -/

theorem decodeWrite_genOn (hu : unitOk u = true) (hm : m ≠ 0) :
    decodeWrite (genOn u b m ++ terminator) = .ok [.on u b m, .fin] := by
  rw [← encodeBytes_onForm hm]
  exact decodeWrite_command (wf_onForm hu hm) record_onForm nofun

theorem decodeWrite_genSet (hu : unitOk u = true) (hm : m ≠ 0) :
    decodeWrite (genSet u b v m ++ terminator) = .ok [.set u b v m, .fin] := by
  rw [← encodeBytes_setForm hm]
  exact decodeWrite_command (wf_setForm hu hm) record_setForm nofun

theorem decodeWrite_genOff (hu : unitOk u = true) :
    decodeWrite (genOff u b ++ terminator) = .ok [.off u b, .fin] := by
  rw [← encodeBytes_offForm]
  exact decodeWrite_command (wf_offForm hu) record_offForm nofun

end Forms

/-! Distinct operands give distinct bytes: what the decoder tells apart differs. -/

/-- The record of `Gen`'s operands; the value byte of a command that has none is no operand (R158). -/
def genRecord (u : Byte) (b : BankIx) (vb : Bool) (v : Byte) (m : Mask) : Record :=
  if vb then .set u b v m else .on u b m

theorem decodeWrite_gen {u : Byte} {m : Mask} (hu : unitOk u = true) (hm : m ≠ 0) (b : BankIx) (vb : Bool)
    (v : Byte) : decodeWrite (gen u b vb v m ++ terminator) = .ok [genRecord u b vb v m, .fin] := by
  cases vb with
  | false => exact decodeWrite_genOn hu hm
  | true => exact decodeWrite_genSet hu hm

theorem operands_of_genRecord_eq {u u' v v' : Byte} {b b' : BankIx} {vb vb' : Bool} {m m' : Mask}
    (h : genRecord u b vb v m = genRecord u' b' vb' v' m') :
    u = u' ∧ b = b' ∧ vb = vb' ∧ m = m' ∧ (vb = true → v = v') := by
  cases vb with
  | false =>
    cases vb' with
    | false =>
      obtain ⟨rfl, rfl, rfl⟩ := Record.on.inj h
      exact ⟨rfl, rfl, rfl, rfl, nofun⟩
    | true => exact Record.noConfusion h
  | true =>
    cases vb' with
    | false => exact Record.noConfusion h
    | true =>
      obtain ⟨rfl, rfl, rfl, rfl⟩ := Record.set.inj h
      exact ⟨rfl, rfl, rfl, rfl, fun _ => rfl⟩

theorem genRecord_ne_off (u u' v : Byte) (b b' : BankIx) (vb : Bool) (m : Mask) :
    genRecord u b vb v m ≠ .off u' b' := by
  cases vb <;> simp [genRecord]

/-- The same bytes decode to the same record. -/
theorem record_unique {xs ys : List Byte} {r r' : Record} (hxs : decodeWrite (xs ++ terminator) = .ok [r, .fin])
    (hys : decodeWrite (ys ++ terminator) = .ok [r', .fin]) (h : xs = ys) : r = r' := by
  subst h
  simpa using hxs.symm.trans hys

/-- Settles O4: the round trip is that of the generic forms, and by it equal bytes have equal records. -/
theorem decodeInvertsGenerator : Obligations.DecodeInvertsGenerator := by
  refine ⟨?masked, ?off, ?masked_injective, ?off_injective, ?disjoint⟩
  case masked =>
    intro u v b m hu hm
    exact ⟨decodeWrite_genSet hu hm, decodeWrite_genOn hu hm⟩
  case off =>
    intro u b hu
    exact decodeWrite_genOff hu
  case masked_injective =>
    intro u u' v v' b b' vb vb' m m' hu hu' hm hm' heq
    exact operands_of_genRecord_eq
      (record_unique (decodeWrite_gen hu hm b vb v) (decodeWrite_gen hu' hm' b' vb' v') heq)
  case off_injective =>
    intro u u' b b' hu hu' heq
    simpa using record_unique (decodeWrite_genOff hu) (decodeWrite_genOff hu') heq
  case disjoint =>
    intro u u' v b b' vb m hu hu' hm heq
    exact genRecord_ne_off u u' v b b' vb m
      (record_unique (decodeWrite_gen hu hm b vb v) (decodeWrite_genOff hu') heq)

end Sys2Proof.Machine
end

section
/-! The guards of `ALLOFF` and how it ends over a legal configuration: every pass fits in the buffer, so no fault
entry is taken (R98, R128, R170 to R176). -/

namespace Sys2Proof.Machine

/-! The passes of a legal configuration. -/

/-- A pass of a table is a pass of one of its controllers (R112). -/
theorem exists_passSpec_of_mem_layout {cfg : List Descriptor} {base : Nat} {p : PassSpec}
    (hp : p ∈ layout base cfg) : ∃ d ∈ cfg, ∃ start k, k < (plan d).npass ∧ passSpec d start k = p := by
  induction cfg generalizing base with
  | nil => cases hp
  | cons d ds ih =>
    rcases List.mem_append.1 hp with hhead | htail
    · exact ⟨d, List.mem_cons_self, base, mem_passesOf.1 hhead⟩
    · obtain ⟨d', hd', hpass⟩ := ih htail
      exact ⟨d', List.mem_cons_of_mem d hd', hpass⟩

/-- A controller without a fault that has a pass has at most 64 banks of channels in each (R98). -/
theorem cpp_le_of_controllerFault_eq_none {d : Descriptor} (h : controllerFault d = none)
    (hpass : 0 < (plan d).npass) : (plan d).cpp ≤ Config.bankSize * Config.maxBanks := by
  rw [controllerFault, if_pos hpass] at h
  split at h
  · cases h
  · split at h
    · cases h
    · omega

/-- A pass of a legal configuration has at most 64 banks (R98, R102). -/
theorem nb_le_of_mem_layout {cfg : List Descriptor} (hlegal : cfgLegal cfg) {base : Nat} {p : PassSpec}
    (hp : p ∈ layout base cfg) : p.nb ≤ Config.maxBanks := by
  obtain ⟨d, hd, start, k, hk, rfl⟩ := exists_passSpec_of_mem_layout hp
  have hcpp := cpp_le_of_controllerFault_eq_none (hlegal d hd) (by omega)
  have hlen : (passSpec d start k).len ≤ (plan d).cpp := Nat.min_le_left _ _
  simp only [PassSpec.nb, ceil16, Config.bankSize, Config.maxBanks] at hcpp ⊢
  omega

/-! One pass of `ALLOFF`. -/

/-- `OFF` takes at most 4 bytes (R159). -/
theorem genOff_length_le (u : Byte) (b : BankIx) : (genOff u b).length ≤ 4 := by
  unfold genOff
  split <;> simp

theorem offCommands_flatten_length_le (u : Byte) (nb : Nat) :
    (offCommands u nb).flatten.length ≤ 4 * nb := by
  have hbound : ∀ bs : List Nat,
      ((bs.map fun b => genOff u (BitVec.ofNat 6 b)).flatten).length ≤ 4 * bs.length := by
    intro bs
    induction bs with
    | nil => simp
    | cons b bs ih =>
      have hb := genOff_length_le u (BitVec.ofNat 6 b)
      simp only [List.map_cons, List.flatten_cons, List.length_append, List.length_cons]
      omega
  simpa [offCommands] using hbound (List.range nb).reverse

/-- A pass of at most 64 banks goes on with its write appended to the trace; `CMDBUF` apart, nothing else changes
(R173). -/
theorem allOffPass_of_nb_le {p : PassSpec} (hnb : p.nb ≤ Config.maxBanks) (s : State) :
    ∃ buf, allOffPass p s = .on { s with cmdbuf := buf, trace := s.trace ++ offEvents p } := by
  have hlen := offCommands_flatten_length_le p.unit p.nb
  rw [allOffPass_of_fits (by simp only [Config.maxBanks, Config.cmdBufBytes] at hnb ⊢; omega), offEvents]
  split
  · exact ⟨s.cmdbuf, by simp⟩
  · exact ⟨[], rfl⟩

/-- The passes one after the other (R170). -/
theorem runEach_allOffPass_of_nb_le {ps : List PassSpec} (hnb : ∀ p ∈ ps, p.nb ≤ Config.maxBanks) (s : State) :
    ∃ buf, runEach allOffPass ps s = .on { s with cmdbuf := buf, trace := s.trace ++ ps.flatMap offEvents } := by
  induction ps generalizing s with
  | nil => exact ⟨s.cmdbuf, by simp⟩
  | cons p ps ih =>
    obtain ⟨hp, hps⟩ := List.forall_mem_cons.1 hnb
    obtain ⟨buf, hpass⟩ := allOffPass_of_nb_le hp s
    rw [runEach_cons, hpass, Flow.andThen_on]
    obtain ⟨buf', hrest⟩ := ih hps { s with cmdbuf := buf, trace := s.trace ++ offEvents p }
    exact ⟨buf', by rw [hrest, List.flatMap_cons, List.append_assoc]⟩

/-- A pass of `ALLOFF` puts nothing but writes into the trace (R173). -/
theorem log_not_mem_offEvents (r : LogReason) (p : PassSpec) : Event.log r ∉ offEvents p := by
  unfold offEvents
  split <;> simp

/-! The operation. -/

/-- `ALLOFF` always answers a next state. -/
theorem exec_alloff (s : State) : exec .alloff s = .next (allOffOp s) := rfl

section AllOffCases

variable {s : State}

theorem allOffOp_of_fault (hfault : s.faultReg ≠ 0) : allOffOp s = finish .faulted s := if_pos hfault

theorem allOffOp_of_not_ready (hfault : s.faultReg = 0) (hready : s.ports.ready = false) :
    allOffOp s = finish .skipNotReady s := by simp [allOffOp, hfault, hready]

/-- Past the guards no fault entry is taken over a legal configuration: the passes run, then the end (R170). -/
theorem allOffOp_of_runs (h : AllOffRuns s) :
    ∃ buf, allOffOp s =
      endAllOff { s with cmdbuf := buf, trace := s.trace ++ (layout 0 s.cfg).flatMap offEvents } := by
  obtain ⟨buf, hrun⟩ := runEach_allOffPass_of_nb_le (fun _ hp => nb_le_of_mem_layout h.legal hp) s
  have hbody : allOffOp s = allOffBody s := by simp [allOffOp, h.noFault, h.ready]
  exact ⟨buf, by rw [hbody, allOffBody, hrun]⟩

/-- `ALLOFF` raises no fault over a legal configuration, and an earlier one stands (R176, R184). -/
theorem allOffOp_faultReg (h : cfgLegal s.cfg ∨ s.faultReg ≠ 0) : (allOffOp s).faultReg = s.faultReg := by
  by_cases hfault : s.faultReg = 0
  case neg => rw [allOffOp_of_fault hfault, finish_faultReg]
  have hlegal : cfgLegal s.cfg := h.resolve_right (absurd hfault)
  cases hready : s.ports.ready with
  | false => rw [allOffOp_of_not_ready hfault hready, finish_faultReg]
  | true =>
    obtain ⟨buf, hend⟩ := allOffOp_of_runs ⟨hfault, hready, hlegal⟩
    rw [hend]
    simp [endAllOff]

end AllOffCases

/-- Settles O44: the two guards end the operation at once, and past them the trace is the writes of the passes, the
heartbeat, the settle wait and the status. -/
theorem allOffGuards : Obligations.AllOffGuards := by
  intro s
  refine ⟨?fault, ?notReady, ?runs⟩
  case fault =>
    intro hfault
    rw [exec_alloff, allOffOp_of_fault hfault, finish]
  case notReady =>
    intro hfault hready
    rw [exec_alloff, allOffOp_of_not_ready hfault hready, finish]
  case runs =>
    intro hruns
    obtain ⟨buf, hend⟩ := allOffOp_of_runs hruns
    refine ⟨_, (layout 0 s.cfg).flatMap offEvents ++ [.heartbeat, .settle], exec_alloff s, ?_, by simp, ?_⟩
    · rw [hend]
      simp [endAllOff]
    · simp [log_not_mem_offEvents]

/-- Settles O46: `ALLOFF` keeps the history and the rest whichever way it goes, and the only fault it could raise is
that of a pass that does not fit, and a legal configuration has no such pass. -/
theorem allOffTouchesNoPersistentState : Obligations.AllOffTouchesNoPersistentState := by
  intro s t hexec
  rw [exec_alloff] at hexec
  obtain rfl : allOffOp s = t := by injection hexec
  obtain ⟨hkeeps, hlast, hforce⟩ := allOffOp_keepsHistory s
  exact ⟨hkeeps.cfg, hlast, hforce, hkeeps.total, hkeeps.occ, allOffOp_faultReg⟩

end Sys2Proof.Machine
end

section
/-! `NOP` (R204), and `FRAME` and `ALLOFF` with no controller (R201). -/

namespace Sys2Proof.Machine

/-! `NOP`. -/

theorem exec_nop (s : State) : exec .nop s = .next (finish .done s) := rfl

/-- Settles O22: `NOP` is the end of an operation and nothing else. -/
theorem nopOnlyReportsDone : Obligations.NopOnlyReportsDone := by
  intro s
  rw [exec_nop, finish]

/-! A `FRAME` past its guards. -/

/-- The address check passes where the channels of `TOTAL` are in both ranges (R51, R111). -/
theorem frameOutOfRange_eq_false_iff {s : State} :
    frameOutOfRange s = false ↔
      s.ports.opStart + s.total ≤ s.ports.opSrcLen ∧ s.ports.opStart + s.total ≤ s.par.maxChannels := by
  simp [frameOutOfRange]

/-- A layout that `TOTAL` covers is not stray (log 14). -/
theorem strayLayout_of_covers {s : State} (hcovers : effTotal s.cfg ≤ s.total) : strayLayout s = false := by
  rw [strayLayout, decide_eq_false (Nat.not_lt.2 hcovers)]
  rfl

theorem exec_frame_of_runs {s : State} (h : FrameRuns s) : exec .frame s = .next (frameBody s) :=
  have hrange : frameOutOfRange s = false := frameOutOfRange_eq_false_iff.2 ⟨h.inSrc, h.inLast⟩
  exec_frame_eq_next.2
    ⟨strayLayout_of_covers h.covers, frameOp_of_guards_pass h.noFault h.ready h.txEmpty hrange⟩

/-! No controller. -/

/-- A table of no controller has no pass (R112, R201). -/
@[simp] theorem layout_nil (base : Nat) : layout base [] = [] := rfl

/-- Without a controller the body of `FRAME` is its start and its end (R110, R125, R201). -/
theorem frameBody_of_cfg_nil {s : State} (hcfg : s.cfg = []) : frameBody s = endFrame (startFrame s) := by
  rw [frameBody, hcfg, layout_nil, runEach_nil]

/-- Settles O43: no controller means no pass, so each operation is what it does around its passes. -/
theorem emptyTableOperations : Obligations.EmptyTableOperations := by
  intro s hcfg
  refine ⟨?frame, ?alloff⟩
  case frame =>
    intro hruns
    refine ⟨frameBody s, exec_frame_of_runs hruns, ?_⟩
    rw [frameBody_of_cfg_nil hcfg]
    rfl
  case alloff =>
    intro hruns
    obtain ⟨buf, hend⟩ := allOffOp_of_runs hruns
    refine ⟨allOffOp s, exec_alloff s, ?_⟩
    rw [hend, hcfg]
    simp [endAllOff]

end Sys2Proof.Machine
end

section
/-! The reference decoder and the encoder are inverse to each other, one command at a time (R72 to R74) and one write at
a time (R73 (f), R74); the machine's step over presented bytes reads them the same way. -/

namespace Sys2Proof

/-- A well-formed wire command that does not close a write. -/
abbrev Instr.IsCommand (i : Instr) : Prop := i.isWire = true ∧ i.wf = true ∧ i ≠ .endWrite

namespace Machine

/-! One command. -/

/-- A wire command is encoded as its bytes (R60). -/
theorem encode_of_isWire {i : Instr} (hwire : i.isWire = true) : encode i = .wire (encodeBytes i) := by
  cases i
  case nop | init | frame | alloff => cases hwire
  all_goals rfl

/-- The four codes of the host port are read back (R80). -/
theorem decode_encode_of_not_isWire {i : Instr} (hport : i.isWire = false) : decode (encode i) = .ok (i, []) := by
  cases i
  case nop | init | frame | alloff => rfl
  all_goals cases hport

/-- Settles O1: a command is read back in front of any bytes, the terminator at the end of them. -/
theorem decodeInvertsEncode : Obligations.DecodeInvertsEncode := by
  intro i hwf
  refine ⟨?_, fun hwire hend rest => decodeWire_encodeBytes hwire hend hwf rest⟩
  cases hwire : i.isWire with
  | false => exact decode_encode_of_not_isWire hwire
  | true =>
    by_cases hend : i = .endWrite
    · subst hend
      rfl
    · have hread := decodeWire_encodeBytes hwire hend hwf []
      rw [List.append_nil] at hread
      rw [encode_of_isWire hwire, decode, hread]

/-- Header, opcode and what is read behind it are the encoding of a well-formed command: each opcode reads exactly the
bytes its row has (R63, R65, R73). -/
theorem decodeOp_sound {u op : Byte} {q rest : List Byte} {i : Instr} (hu : unitOk u = true)
    (h : decodeOp u op q = .ok (i, rest)) :
    i.wf = true ∧ i ≠ .endWrite ∧ 0x00 :: u :: op :: q = encodeBytes i ++ rest := by
  by_cases h41 : op = 0x41
  · subst h41
    cases h
    exact ⟨hu, nofun, rfl⟩
  by_cases h11 : op = 0x11
  · subst h11
    obtain ⟨l, hl, rfl, rfl⟩ := oneMask_eq_ok h
    exact ⟨by simp [Instr.wf, hu, hl], nofun, rfl⟩
  by_cases h21 : op = 0x21
  · subst h21
    obtain ⟨m, hm, rfl, rfl⟩ := oneMask_eq_ok h
    exact ⟨by simp [Instr.wf, hu, hm], nofun, rfl⟩
  by_cases h31 : op = 0x31
  · subst h31
    obtain ⟨l, m, hl, hm, rfl, rfl⟩ := twoMasks_eq_ok h
    exact ⟨by simp [Instr.wf, hu, hl, hm], nofun, rfl⟩
  by_cases h13 : op = 0x13
  · subst h13
    obtain ⟨v, r, rfl, hmasks⟩ := withVal_eq_ok h
    obtain ⟨l, hl, rfl, rfl⟩ := oneMask_eq_ok hmasks
    exact ⟨by simp [Instr.wf, hu, hl], nofun, rfl⟩
  by_cases h23 : op = 0x23
  · subst h23
    obtain ⟨v, r, rfl, hmasks⟩ := withVal_eq_ok h
    obtain ⟨m, hm, rfl, rfl⟩ := oneMask_eq_ok hmasks
    exact ⟨by simp [Instr.wf, hu, hm], nofun, rfl⟩
  by_cases h33 : op = 0x33
  · subst h33
    obtain ⟨v, r, rfl, hmasks⟩ := withVal_eq_ok h
    obtain ⟨l, m, hl, hm, rfl, rfl⟩ := twoMasks_eq_ok hmasks
    exact ⟨by simp [Instr.wf, hu, hl, hm], nofun, rfl⟩
  by_cases h51 : op = 0x51
  · subst h51
    rw [decodeOp_banked] at h
    obtain ⟨b, hb, hcases⟩ := withBank_eq_ok h
    rcases hcases with ⟨l, m, hl, hm, rfl, rfl⟩ | ⟨l, hl, rfl, rfl⟩ | ⟨m, hm, rfl, rfl⟩ | ⟨hwhole, rfl⟩
    · exact ⟨by simp [Instr.wf, hu, hb, hl, hm], nofun, rfl⟩
    · exact ⟨by simp [Instr.wf, hu, hb, hl], nofun, rfl⟩
    · exact ⟨by simp [Instr.wf, hu, hb, hm], nofun, rfl⟩
    · cases hwhole
      exact ⟨by simp [Instr.wf, hu, hb], nofun, rfl⟩
  by_cases h53 : op = 0x53
  · subst h53
    obtain ⟨v, r, rfl, hbanked⟩ := withVal_eq_ok h
    obtain ⟨b, hb, hcases⟩ := withBank_eq_ok hbanked
    rcases hcases with ⟨l, m, hl, hm, rfl, rfl⟩ | ⟨l, hl, rfl, rfl⟩ | ⟨m, hm, rfl, rfl⟩ | ⟨hwhole, -⟩
    · exact ⟨by simp [Instr.wf, hu, hb, hl, hm], nofun, rfl⟩
    · exact ⟨by simp [Instr.wf, hu, hb, hl], nofun, rfl⟩
    · exact ⟨by simp [Instr.wf, hu, hb, hm], nofun, rfl⟩
    · cases hwhole
  rw [decodeOp, if_neg h41, if_neg h11, if_neg h21, if_neg h31, if_neg h13, if_neg h23, if_neg h33, if_neg h51,
    if_neg h53] at h
  cases h

/-- What the decoder of the wire accepts: the terminator and nothing behind it, or a header, an opcode and what belongs
to it (R61, R67, R74). -/
theorem decodeWire_eq_ok {bytes rest : List Byte} {i : Instr} (h : decodeWire bytes = .ok (i, rest)) :
    (bytes = terminator ∧ i = .endWrite ∧ rest = []) ∨
    ∃ u op q, unitOk u = true ∧ bytes = 0x00 :: u :: op :: q ∧ decodeOp u op q = .ok (i, rest) := by
  rcases bytes with _ | ⟨h0, _ | ⟨u, q⟩⟩
  · cases h
  · cases h
  simp only [decodeWire] at h
  split at h
  · cases h
  rename_i hheader
  obtain rfl : h0 = 0 := not_not.1 hheader
  split at h
  · rename_i hzero
    subst hzero
    cases q with
    | nil => cases h; exact .inl ⟨rfl, rfl, rfl⟩
    | cons => cases h
  rename_i hzero
  split at h
  · cases h
  rename_i hff
  cases q with
  | nil => cases h
  | cons op q => exact .inr ⟨u, op, q, unitOk_iff.2 ⟨hzero, hff⟩, rfl, h⟩

/-- Settles O2, by the two kinds of command the decoder accepts. -/
theorem decodedBytesAreEncodings : Obligations.DecodedBytesAreEncodings := by
  intro bytes rest i h
  refine ⟨decodeWire_isWire h, ?_⟩
  rcases decodeWire_eq_ok h with ⟨rfl, rfl, rfl⟩ | ⟨u, op, q, hu, rfl, hop⟩
  · exact ⟨rfl, rfl, fun _ => rfl⟩
  · obtain ⟨hwf, hend, hbytes⟩ := decodeOp_sound hu hop
    exact ⟨hwf, hbytes, (absurd · hend)⟩

/-! One write. -/

/-- Fuel for one more than the commands decodes commands and terminator (R74). -/
theorem decodeWriteLoop_commands {cmds : List Instr} (hcmds : ∀ i ∈ cmds, i.IsCommand) {n : Nat}
    (hfuel : cmds.length < n) :
    decodeWriteLoop n (cmds.flatMap encodeBytes ++ terminator) =
      .ok (cmds.flatMap (fun i => i.record.toList) ++ [.fin]) := by
  obtain ⟨k, rfl⟩ : ∃ k, n = k + 1 := ⟨n - 1, by omega⟩
  induction cmds generalizing k with
  | nil => exact decodeWriteLoop_terminator k
  | cons i cmds ih =>
    obtain ⟨⟨hwire, hwf, hend⟩, hrest⟩ := List.forall_mem_cons.1 hcmds
    obtain ⟨j, rfl⟩ : ∃ j, k = j + 1 := ⟨k - 1, by rw [List.length_cons] at hfuel; omega⟩
    rw [List.flatMap_cons, List.append_assoc,
      decodeWriteLoop_command hwire hend hwf (ih hrest j (by simpa using hfuel)), List.flatMap_cons,
      List.append_assoc]

/-- What the loop of `Decode` accepts is commands and the terminator (R73 (f), R74). -/
theorem exists_commands_of_decodeWriteLoop {n : Nat} {bytes : List Byte} {rs : List Record}
    (h : decodeWriteLoop n bytes = .ok rs) :
    ∃ cmds : List Instr, (∀ i ∈ cmds, i.IsCommand) ∧ bytes = cmds.flatMap encodeBytes ++ terminator ∧
      rs = cmds.flatMap (fun i => i.record.toList) ++ [.fin] := by
  induction n generalizing bytes rs with
  | zero => cases h
  | succ n ih =>
    simp only [decodeWriteLoop] at h
    split at h
    · cases h
    rename_i i rest hfirst
    obtain ⟨hwire, hwf, hbytes, hlast⟩ := decodedBytesAreEncodings _ _ _ hfirst
    split at h
    · rename_i hend
      cases h
      exact ⟨[], nofun, by rw [hbytes, hlast hend, hend]; rfl, rfl⟩
    rename_i hend
    split at h
    · cases h
    rename_i rs' hrest
    cases h
    obtain ⟨cmds, hcmds, rfl, rfl⟩ := ih hrest
    exact ⟨i :: cmds, List.forall_mem_cons.2 ⟨⟨hwire, hwf, hend⟩, hcmds⟩, by
      rw [hbytes, List.flatMap_cons, List.append_assoc], by rw [List.flatMap_cons, List.append_assoc]⟩

/-- A command takes at least one byte, so the bytes of a write are fuel for its commands. -/
theorem length_le_flatMap_encodeBytes {cmds : List Instr} (hcmds : ∀ i ∈ cmds, i.IsCommand) :
    cmds.length ≤ (cmds.flatMap encodeBytes).length := by
  induction cmds with
  | nil => simp
  | cons i cmds ih =>
    obtain ⟨⟨hwire, -, -⟩, hrest⟩ := List.forall_mem_cons.1 hcmds
    have hone : 0 < (encodeBytes i).length := by
      cases i
      case nop | init | frame | alloff => cases hwire
      all_goals exact Nat.succ_pos _
    have := ih hrest
    simp only [List.flatMap_cons, List.length_append, List.length_cons]
    omega

/-- Commands and terminator decode to their records (R74). -/
theorem decodeWrite_commands {cmds : List Instr} (hcmds : ∀ i ∈ cmds, i.IsCommand) :
    decodeWrite (cmds.flatMap encodeBytes ++ terminator) =
      .ok (cmds.flatMap (fun i => i.record.toList) ++ [.fin]) := by
  have := length_le_flatMap_encodeBytes hcmds
  exact decodeWriteLoop_commands hcmds (by simp only [List.length_append, terminator, List.length_cons]; omega)

/-- Settles O3: the loop takes off one command after the other, down to the terminator. -/
theorem decodedWritesAreCommandSequences : Obligations.DecodedWritesAreCommandSequences := by
  intro bytes rs
  constructor
  · exact exists_commands_of_decodeWriteLoop
  · rintro ⟨cmds, hcmds, rfl, rfl⟩
    exact decodeWrite_commands hcmds

/-! Fixed words. -/

/-- Settles O6: closed terms, evaluated. -/
theorem tableWordsDecode : Obligations.TableWordsDecode := by
  unfold Obligations.TableWordsDecode
  decide

/-! Presented bytes. -/

/-- The bytes left over by a presented command stay first in line (log 1). -/
theorem requeue_eq (rest : List Byte) (s : State) :
    requeue rest s = { s with pending := if rest = [] then s.pending else .wire rest :: s.pending } := by
  cases rest <;> rfl

/-- Settles O50: a presentation decodes its first command and runs it with the rest in line again. -/
theorem stepRunsPresentedCommand : Obligations.StepRunsPresentedCommand := by
  intro s bytes rest q i hpending hdecode
  simp only [step, hpending, act, present, hdecode, requeue_eq]

end Machine

end Sys2Proof
end

section
/-! A wire command by itself: the domain it needs, the bytes it appends, the fault where they do not fit, and a whole
write presented command by command (R128, R140 to R159). -/

namespace Sys2Proof.Machine

/-! Inside the domain. -/

/-- A command's whole effect, where they fit, is that its bytes are appended. -/
theorem appends_encodeBytes {i : Instr} (hcmd : i.IsCommand) : appends i (encodeBytes i) := by
  obtain ⟨hwire, hwf, hend⟩ := hcmd
  intro s hfits
  rw [exec_wire_of_wf hwire hend hwf, emit_of_fits hfits, Flow.state_on]

/-- An instruction whose record is not the terminator's is a command, if it is well formed. -/
theorem isCommand_of_record {i : Instr} {r : Record} (hwf : i.wf = true) (hrec : i.record = some r)
    (hfin : r ≠ .fin) : i.IsCommand := by
  refine ⟨isWire_of_record hrec, hwf, ?_⟩
  rintro rfl
  exact hfin (Option.some.inj hrec).symm

/-- Settles O5: the forms have the generator's bytes, and the records of their own operands. -/
theorem genericFormsEncodeAsGenerated : Obligations.GenericFormsEncodeAsGenerated := by
  intro u v b m
  exact ⟨fun hm => ⟨encodeBytes_onForm hm, record_onForm, encodeBytes_setForm hm, record_setForm⟩,
    encodeBytes_offForm, record_offForm⟩

/-- Settles O10: a form in the generator's domain is a command, and its bytes are the generator's. -/
theorem genericFormsAppendGeneratedBytes : Obligations.GenericFormsAppendGeneratedBytes := by
  intro u v b m hu
  refine ⟨fun hm => ⟨?on, ?set⟩, ?off⟩
  case on =>
    rw [← encodeBytes_onForm hm]
    exact appends_encodeBytes (isCommand_of_record (wf_onForm hu hm) record_onForm nofun)
  case set =>
    rw [← encodeBytes_setForm hm]
    exact appends_encodeBytes (isCommand_of_record (wf_setForm hu hm) record_setForm nofun)
  case off =>
    rw [← encodeBytes_offForm]
    exact appends_encodeBytes (isCommand_of_record (wf_offForm hu) record_offForm nofun)

/-- Settles O8: the bytes of each rule are the command's encoding. -/
theorem bankZeroCommandsAppendTheirBytes : Obligations.BankZeroCommandsAppendTheirBytes := by
  intro u v l m hu hl hm
  refine ⟨?onl0, ?onm0, ?onlm0, ?setl0, ?setm0, ?setlm0, ?offb0⟩
  all_goals exact appends_encodeBytes ⟨rfl, by simp [Instr.wf, hu, hl, hm], nofun⟩

/-- Settles O9: the bytes of each rule are the command's encoding, the bank byte written out by its flags. -/
theorem bankedCommandsAppendTheirBytes : Obligations.BankedCommandsAppendTheirBytes := by
  intro u v l m b hu hb hl hm
  obtain ⟨hboth, hlsb, hmsb, hwhole⟩ := bankByte_literal b
  have hzero : (0x00 : Byte) ||| b.setWidth 8 = b.setWidth 8 := BitVec.zero_or
  rw [← hlsb, ← hmsb, ← hwhole, hzero, ← hboth]
  refine ⟨?onlmn, ?onln, ?onmn, ?offbn, ?setlmn, ?setln, ?setmn⟩
  all_goals exact appends_encodeBytes ⟨rfl, by simp [Instr.wf, hu, hb, hl, hm], nofun⟩

/-- Settles O11: the terminator fits, and the buffer is handed over with it. -/
theorem endClosesTheWrite : Obligations.EndClosesTheWrite := by
  intro s hfits
  rw [exec, execEnd, closePass_of_fits hfits, Flow.state_on, terminator]

/-- Settles O12: `Emit` takes the fault entry, called by the command or by the close of the write. -/
theorem commandThatDoesNotFitFaults : Obligations.CommandThatDoesNotFitFaults := by
  intro i s hwire hwf hfull
  have hexec : exec i s = .next (raise .capacity s) := by
    by_cases hend : i = .endWrite
    · subst hend
      rw [exec, execEnd, closePass_of_full hfull, Flow.state_ended]
    · rw [exec_wire_of_wf hwire hend hwf, emit_of_full hfull, Flow.state_ended]
  rw [hexec, raise, finish, Cause.code]

/-! Outside the domain. -/

theorem unitRefusal_eq_none_iff {u : Byte} : unitRefusal u = none ↔ unitOk u = true := by
  cases h : unitOk u <;> simp [unitRefusal_of_bad, h]

theorem bankRefusal_eq_none_iff {b : BankIx} : bankRefusal b = none ↔ bankOk b = true := by
  cases h : bankOk b <;> simp [bankRefusal_of_bad, h]

theorem maskRefusal_eq_none_iff {m : Byte} : maskRefusal m = none ↔ maskOk m = true := by
  cases h : maskOk m <;> simp [maskRefusal_of_bad, h]

/-- A wire command is well formed where none of its checks objects (R71, R156, R157). -/
theorem wf_of_domainChecks {i : Instr} (hwire : i.isWire = true) (h : ∀ c ∈ domainChecks i, c = none) :
    i.wf = true := by
  cases i
  case nop | init | frame | alloff => cases hwire
  case endWrite => rfl
  all_goals
    simpa [domainChecks, unitRefusal_eq_none_iff, bankRefusal_eq_none_iff, maskRefusal_eq_none_iff, Instr.wf,
      and_assoc] using h

/-- The names under which a wire command is refused (R156, R157, U1, U2). -/
def Refusal.IsDomain (r : Refusal) : Prop := r = .unitOutOfRange ∨ r = .bankOutOfRange ∨ r = .zeroMask

theorem unitRefusal_isDomain {u : Byte} {r : Refusal} (h : unitRefusal u = some r) : r.IsDomain := by
  unfold unitRefusal at h
  split at h <;> cases h
  exact .inl rfl

theorem bankRefusal_isDomain {b : BankIx} {r : Refusal} (h : bankRefusal b = some r) : r.IsDomain := by
  unfold bankRefusal at h
  split at h <;> cases h
  exact .inr (.inl rfl)

theorem maskRefusal_isDomain {m : Byte} {r : Refusal} (h : maskRefusal m = some r) : r.IsDomain := by
  unfold maskRefusal at h
  split at h <;> cases h
  exact .inr (.inr rfl)

/-- A check objects under one of the three names. -/
theorem isDomain_of_mem_domainChecks {i : Instr} {r : Refusal} (h : some r ∈ domainChecks i) : r.IsDomain := by
  have hkind : (∃ u, unitRefusal u = some r) ∨ (∃ b, bankRefusal b = some r) ∨ ∃ m, maskRefusal m = some r := by
    cases i <;> simp only [domainChecks, List.mem_cons, List.not_mem_nil, or_false] at h <;> grind
  rcases hkind with ⟨u, hu⟩ | ⟨b, hb⟩ | ⟨m, hm⟩
  · exact unitRefusal_isDomain hu
  · exact bankRefusal_isDomain hb
  · exact maskRefusal_isDomain hm

/-- Settles O13: a command that is not well formed fails one of its checks, which refuses it; a well-formed one is
given to `Emit`, whichever way that ends. -/
theorem commandsRefusedExactlyOutsideDomain : Obligations.CommandsRefusedExactlyOutsideDomain := by
  intro i s hwire
  refine ⟨fun hwf => ?outside, fun hwf => ?inside⟩
  case outside =>
    have hend : i ≠ .endWrite := by
      rintro rfl
      cases hwf
    cases hfirst : (domainChecks i).findSome? id with
    | none =>
      have hpass := wf_of_domainChecks hwire (List.findSome?_eq_none_iff.1 hfirst)
      exact absurd hpass (by simp [hwf])
    | some r =>
      obtain ⟨c, hc, rfl⟩ := List.exists_of_findSome?_eq_some hfirst
      rw [exec_wire hwire hend, command, hfirst]
      simpa [Refusal.IsDomain] using isDomain_of_mem_domainChecks hc
  case inside =>
    by_cases hend : i = .endWrite
    · subst hend
      exact ⟨_, rfl⟩
    · exact ⟨_, exec_wire_of_wf hwire hend hwf s⟩

/-! A whole write, command by command. -/

theorem record_of_isWire {i : Instr} (hwire : i.isWire = true) : ∃ r, i.record = some r := by
  cases i
  case nop | init | frame | alloff => cases hwire
  all_goals exact ⟨_, rfl⟩

/-- A command has one record (R74). -/
theorem records_length {cmds : List Instr} (hcmds : ∀ i ∈ cmds, i.IsCommand) :
    (cmds.flatMap (fun i => i.record.toList)).length = cmds.length := by
  induction cmds with
  | nil => rfl
  | cons i cmds ih =>
    obtain ⟨⟨hwire, -, -⟩, hrest⟩ := List.forall_mem_cons.1 hcmds
    obtain ⟨r, hrec⟩ := record_of_isWire hwire
    rw [List.flatMap_cons, List.length_append, ih hrest, hrec, List.length_cons, Nat.add_comm]
    rfl

/-- A command in front of presented bytes that it fits: its bytes go into the buffer, the rest stays in line. -/
theorem step_of_command {s : State} {i : Instr} {rest : List Byte} {q : List Stimulus} (hcmd : i.IsCommand)
    (hrest : rest ≠ []) (hpending : s.pending = .wire (encodeBytes i ++ rest) :: q)
    (hfits : s.cmdbuf.length + (encodeBytes i).length ≤ Config.cmdBufBytes) :
    step s = .next { s with pending := .wire rest :: q, cmdbuf := s.cmdbuf ++ encodeBytes i } := by
  obtain ⟨hwire, hwf, hend⟩ := hcmd
  rw [stepRunsPresentedCommand s _ rest q i hpending (decodeWire_encodeBytes hwire hend hwf rest), if_neg hrest]
  exact appends_encodeBytes ⟨hwire, hwf, hend⟩ _ hfits

/-- A run goes on from the state a step answers. -/
theorem run_succ_of_step {s t : State} (h : step s = .next t) (k : Nat) :
    Host.Core.run Sys2Proof.core (k + 1) s = Host.Core.run Sys2Proof.core k t := by
  have hcore : Sys2Proof.core.step s = .next t := h
  simp only [Host.Core.run, hcore]

/-- The bytes of commands and terminator, presented behind what the buffer holds, go out behind it as one write. -/
theorem run_presented {cmds : List Instr} (hcmds : ∀ i ∈ cmds, i.IsCommand) {s : State} {q : List Stimulus}
    (hpending : s.pending = .wire (cmds.flatMap encodeBytes ++ terminator) :: q)
    (hfits : s.cmdbuf.length + (cmds.flatMap encodeBytes ++ terminator).length ≤ Config.cmdBufBytes) :
    Host.Core.run Sys2Proof.core (cmds.length + 1) s =
      .next { s with
        pending := q, cmdbuf := []
        trace := s.trace ++ [.txWrite (s.cmdbuf ++ (cmds.flatMap encodeBytes ++ terminator))] } := by
  induction cmds generalizing s with
  | nil =>
    have hstep : step s = exec .endWrite { s with pending := q } :=
      stepRunsPresentedCommand s terminator [] q .endWrite hpending rfl
    rw [endClosesTheWrite { s with pending := q } hfits] at hstep
    rw [List.length_nil, run_succ_of_step hstep]
    rfl
  | cons i cmds ih =>
    obtain ⟨hcmd, hrest⟩ := List.forall_mem_cons.1 hcmds
    rw [List.flatMap_cons, List.append_assoc] at hpending hfits
    rw [List.length_append] at hfits
    have hstep := step_of_command hcmd (by simp [terminator]) hpending (by omega)
    have hrun := ih hrest (s := { s with
      pending := .wire (cmds.flatMap encodeBytes ++ terminator) :: q, cmdbuf := s.cmdbuf ++ encodeBytes i }) rfl
      (by rw [List.length_append]; omega)
    rw [List.length_cons, run_succ_of_step hstep, hrun]
    simp only [List.flatMap_cons, List.append_assoc]

/-- Settles O14: a valid write is commands and a terminator, one step each. -/
theorem presentedWriteGoesOutUnchanged : Obligations.PresentedWriteGoesOutUnchanged := by
  intro s bytes rs q hdecode hlen hbuf hpending
  obtain ⟨cmds, hcmds, rfl, rfl⟩ := exists_commands_of_decodeWriteLoop hdecode
  have hfits : s.cmdbuf.length + (cmds.flatMap encodeBytes ++ terminator).length ≤ Config.cmdBufBytes := by
    rwa [hbuf, List.length_nil, Nat.zero_add]
  rw [List.length_append, records_length hcmds, List.length_singleton, run_presented hcmds hpending hfits, hbuf,
    List.nil_append]

end Sys2Proof.Machine
end

section
/-! The layout planner (R90 to R103) and the checks of a configuration (R203). -/

namespace Sys2Proof.Machine

/-! `PLAN`. -/

section Plan

variable {d : Descriptor}

/-- No pass for a malformed descriptor or one of no channels (R91). -/
theorem plan_of_empty (h : d.dtype = .malformed ∨ d.chanCount = 0) : plan d = ⟨0, 0, 0⟩ := by
  rcases h with h | h <;> simp [plan, h]

variable (htype : d.dtype ≠ .malformed) (hcount : d.chanCount ≠ 0)

include htype hcount

/-- One pass per port of a Pixie card (R92). -/
theorem plan_pixie {ports : Nat} (hports : pixiePorts d.dtype = some ports) :
    plan d = ⟨d.chanCount * ports, d.chanCount, ports⟩ := by simp [plan, htype, hcount, hports]

/-- Two halves, the odd channel left over (R94). -/
theorem plan_split (hports : pixiePorts d.dtype = none) (hmode : d.amode = .split) :
    plan d = ⟨d.chanCount, d.chanCount / 2, 2⟩ := by simp [plan, htype, hcount, hports, hmode]

/-- One pass of all channels (R95). -/
theorem plan_normal (hports : pixiePorts d.dtype = none) (hmode : d.amode = .normal) :
    plan d = ⟨d.chanCount, d.chanCount, 1⟩ := by simp [plan, htype, hcount, hports, hmode]

end Plan

/-- Settles O15, by the six rows of the selection. -/
theorem planSelectsByTypeAndMode : Obligations.PlanSelectsByTypeAndMode := by
  intro d
  refine ⟨plan_of_empty, fun htype hcount => ⟨?pixie4, ?pixie8, ?pixie16, ?legacy, ?split, ?normal⟩⟩
  case pixie4 => exact fun h => plan_pixie htype hcount (by rw [h]; rfl)
  case pixie8 => exact fun h => plan_pixie htype hcount (by rw [h]; rfl)
  case pixie16 => exact fun h => plan_pixie htype hcount (by rw [h]; rfl)
  case legacy => exact fun hports hmode => plan_legacy hports htype hmode hcount
  case split => exact plan_split htype hcount
  case normal => exact plan_normal htype hcount

/-! Equal passes. -/

/-- Blocks of `c` places one behind the other cover the places of all of them. -/
theorem exists_block_iff {base c n a : Nat} :
    (∃ k, k < n ∧ base + k * c ≤ a ∧ a < base + k * c + c) ↔ base ≤ a ∧ a < base + n * c := by
  constructor
  · rintro ⟨k, hk, hlow, hhigh⟩
    have : (k + 1) * c ≤ n * c := Nat.mul_le_mul_right c hk
    rw [Nat.succ_mul] at this
    omega
  · rintro ⟨hlow, hhigh⟩
    have hc : 0 < c := Nat.pos_of_ne_zero fun h => by subst h; omega
    have hdiv := Nat.div_add_mod (a - base) c
    have hmod := Nat.mod_lt (a - base) hc
    rw [Nat.mul_comm] at hdiv
    exact ⟨(a - base) / c, (Nat.div_lt_iff_lt_mul hc).2 (by omega), by omega, by omega⟩

/-- Where `NPASS` passes of `CPP` channels exist, each holds `CPP` channels, and together they hold all of those
(R102). -/
theorem equal_passes {d : Descriptor} (hfit : (plan d).npass * (plan d).cpp ≤ (plan d).eff) (base : Nat) :
    (∀ p ∈ passesOf d base, p.len = (plan d).cpp) ∧
    ∀ a, (∃ p ∈ passesOf d base, p.holds a) ↔ base ≤ a ∧ a < base + (plan d).npass * (plan d).cpp := by
  have hlen : ∀ k, k < (plan d).npass → (passSpec d base k).len = (plan d).cpp := by
    intro k hk
    have : (k + 1) * (plan d).cpp ≤ (plan d).npass * (plan d).cpp := Nat.mul_le_mul_right _ hk
    rw [Nat.succ_mul] at this
    simp only [passSpec]
    omega
  refine ⟨fun p hp => ?_, fun a => ?_⟩
  · obtain ⟨k, hk, rfl⟩ := mem_passesOf.1 hp
    exact hlen k hk
  · rw [← exists_block_iff]
    constructor
    · rintro ⟨p, hp, hlow, hhigh⟩
      obtain ⟨k, hk, rfl⟩ := mem_passesOf.1 hp
      rw [hlen k hk] at hhigh
      exact ⟨k, hk, hlow, hhigh⟩
    · rintro ⟨k, hk, hlow, hhigh⟩
      refine ⟨passSpec d base k, mem_passesOf.2 ⟨k, hk, rfl⟩, hlow, ?_⟩
      rw [hlen k hk]
      exact hhigh

/-- Settles O17: the passes fill `EFF`, but for the odd channel of a Split controller. -/
theorem equalPassesCoverTheController : Obligations.EqualPassesCoverTheController := by
  intro d base hnot
  by_cases hempty : d.dtype = .malformed ∨ d.chanCount = 0
  · have hplan := plan_of_empty hempty
    refine ⟨by simp [passesOf, hplan], fun a => ?_⟩
    simp only [passesOf, hplan, List.range_zero, List.map_nil, List.not_mem_nil, false_and, exists_false, false_iff]
    rintro ⟨hlow, hhigh, -⟩
    omega
  obtain ⟨htype, hcount⟩ := not_or.1 hempty
  cases hports : pixiePorts d.dtype with
  | some ports =>
    have hplan := plan_pixie htype hcount hports
    obtain ⟨hlen, hcover⟩ := equal_passes (d := d) (by rw [hplan, Nat.mul_comm]) base
    refine ⟨hlen, fun a => ?_⟩
    rw [hcover, hplan, Nat.mul_comm]
    simp
  | none =>
    cases hmode : d.amode with
    | legacy => exact absurd ⟨hports, htype, hmode⟩ hnot
    | split =>
      have hplan := plan_split htype hcount hports hmode
      obtain ⟨hlen, hcover⟩ := equal_passes (d := d) (by rw [hplan]; dsimp only; omega) base
      refine ⟨hlen, fun a => ?_⟩
      rw [hcover, hplan]
      simp only [true_and]
      omega
    | normal =>
      have hplan := plan_normal htype hcount hports hmode
      obtain ⟨hlen, hcover⟩ := equal_passes (d := d) (by simp [hplan]) base
      refine ⟨hlen, fun a => ?_⟩
      rw [hcover, hplan]
      simp

/-! The layout of a table. -/

/-- A pass ends where the next one of its controller starts, or before (R112). -/
theorem passesOf_pairwise (d : Descriptor) (base : Nat) :
    (passesOf d base).Pairwise (fun p q => p.g0 + p.len ≤ q.g0) := by
  refine List.pairwise_map.2 (List.pairwise_lt_range.imp ?_)
  intro j k hjk
  have : (j + 1) * (plan d).cpp ≤ k * (plan d).cpp := Nat.mul_le_mul_right _ hjk
  rw [Nat.succ_mul] at this
  simp only [passSpec]
  omega

/-- The passes of a table lie between its first channel and the end of its last controller (R48). -/
theorem layout_bounds {cfg : List Descriptor} {start : Nat} {p : PassSpec} (hp : p ∈ layout start cfg) :
    start ≤ p.g0 ∧ p.g0 + p.len ≤ start + effTotal cfg := by
  induction cfg generalizing start with
  | nil => cases hp
  | cons d ds ih =>
    simp only [effTotal]
    rcases List.mem_append.1 hp with hhead | htail
    · obtain ⟨k, hk, rfl⟩ := mem_passesOf.1 hhead
      have := passSpec_bounds start hk
      omega
    · have := ih htail
      omega

theorem layout_pairwise (start : Nat) (cfg : List Descriptor) :
    (layout start cfg).Pairwise (fun p q => p.g0 + p.len ≤ q.g0) := by
  induction cfg generalizing start with
  | nil => exact .nil
  | cons d ds ih =>
    refine List.pairwise_append.2 ⟨passesOf_pairwise d start, ih _, ?_⟩
    intro p hp q hq
    obtain ⟨k, hk, rfl⟩ := mem_passesOf.1 hp
    exact (passSpec_bounds start hk).2.trans (layout_bounds hq).1

/-- Settles O18: controllers follow each other as their passes do. -/
theorem layoutVisitsNoChannelTwice : Obligations.LayoutVisitsNoChannelTwice :=
  fun start cfg => ⟨layout_pairwise start cfg, fun _ hp => layout_bounds hp⟩

/-! Legal controllers. -/

/-- The unit IDs of a controller with a pass are not all in 1 to 254 (R97). -/
abbrev UnitRangeFails (d : Descriptor) : Prop := d.unitId = 0 ∨ Config.unitMax < d.unitId.toNat + (plan d).npass - 1

/-- The unit IDs a controller without a fault consumes are in 1 to 254 (R97). -/
theorem not_unitRangeFails {d : Descriptor} (h : controllerFault d = none) (hpass : 0 < (plan d).npass) :
    ¬ UnitRangeFails d := by
  intro hfails
  rw [controllerFault, if_pos hpass, if_pos hfails] at h
  cases h

/-- Settles O19: the unit IDs are in range, so their 8-bit sums do not wrap. -/
theorem legalPassesHaveLegalUnitsAndBanks : Obligations.LegalPassesHaveLegalUnitsAndBanks := by
  intro d base p hlegal hp
  obtain ⟨hzero, hmax⟩ := not_or.1 (not_unitRangeFails hlegal (by omega))
  have hpos : d.unitId.toNat ≠ 0 := fun h => hzero (BitVec.eq_of_toNat_eq h)
  have hunit : (passSpec d base p).unit.toNat = d.unitId.toNat + p := by
    simp only [passSpec, BitVec.toNat_add, BitVec.toNat_ofNat, Config.unitMax] at hmax ⊢
    omega
  simp only [Config.unitMax] at hmax
  refine ⟨hunit, by omega, by omega, unitOk_iff.2 ⟨?nonzero, ?notAll⟩, ?banks⟩
  case nonzero =>
    intro h
    rw [h] at hunit
    change 0 = _ at hunit
    omega
  case notAll =>
    intro h
    rw [h] at hunit
    change 255 = _ at hunit
    omega
  case banks =>
    have hcpp := cpp_le_of_controllerFault_eq_none hlegal (by omega)
    have hlen : (passSpec d base p).len ≤ (plan d).cpp := Nat.min_le_left _ _
    simp only [PassSpec.nb, ceil16, Config.bankSize, Config.maxBanks] at hcpp ⊢
    omega

/-- The passes of a legal table (R97, R98). -/
theorem unitOk_of_mem_layout {cfg : List Descriptor} (hlegal : cfgLegal cfg) {base : Nat} {p : PassSpec}
    (hp : p ∈ layout base cfg) : unitOk p.unit = true := by
  obtain ⟨d, hd, start, k, hk, rfl⟩ := exists_passSpec_of_mem_layout hp
  obtain ⟨-, -, -, hunit, -⟩ := legalPassesHaveLegalUnitsAndBanks d start k (hlegal d hd) hk
  exact hunit

/-! The occupancy map. -/

/-- Marking a range of units (R99). -/
theorem foldl_markUnit_getLsbD {v : Nat} (hv : v ≤ 254) (us : List Nat) (u : Nat) (occ : BitVec 255) :
    (us.foldl (fun o p => markUnit o (u + p)) occ).getLsbD v = true ↔
      occ.getLsbD v = true ∨ ∃ p ∈ us, u + p = v := by
  induction us generalizing occ with
  | nil => simp
  | cons p us ih =>
    rw [List.foldl_cons, ih, markUnit_getLsbD _ _ hv]
    simp [or_assoc]

/-- Marking a controller marks the units of its passes (R97, R99). -/
theorem markController_getLsbD {v : Nat} (hv : v ≤ 254) (d : Descriptor) (occ : BitVec 255) :
    (markController occ d).getLsbD v = true ↔
      occ.getLsbD v = true ∨ ∃ p, p < (plan d).npass ∧ d.unitId.toNat + p = v := by
  simp only [markController, foldl_markUnit_getLsbD hv, List.mem_range]

theorem foldl_markController_getLsbD {v : Nat} (hv : v ≤ 254) (cfg : List Descriptor) (occ : BitVec 255) :
    (cfg.foldl markController occ).getLsbD v = true ↔
      occ.getLsbD v = true ∨ ∃ d ∈ cfg, ∃ p, p < (plan d).npass ∧ d.unitId.toNat + p = v := by
  induction cfg generalizing occ with
  | nil => simp
  | cons d cfg ih =>
    rw [List.foldl_cons, ih, markController_getLsbD hv]
    simp [or_assoc]

/-- Settles O20: the map starts with entry 0, and each controller adds its units. -/
theorem occupancyMarksConsumedUnits : Obligations.OccupancyMarksConsumedUnits := by
  intro cfg u hu
  rw [occupancy, foldl_markController_getLsbD hu]
  have hstart : (1 : BitVec 255).getLsbD u = true ↔ u = 0 := by
    rw [show (1 : BitVec 255) = 1#255 from rfl, BitVec.getLsbD_one]
    simp [eq_comm]
  rw [hstart]

/-! `VALIDATE`. -/

/-- The first check of R203 a controller fails (R97, R98, R188). -/
theorem controllerFault_eq_some_iff {d : Descriptor} {c : Cause} :
    controllerFault d = some c ↔
      0 < (plan d).npass ∧
        (UnitRangeFails d ∧ c = .unitRange ∨ ¬ UnitRangeFails d ∧ 1024 < (plan d).cpp ∧ c = .bankRange) := by
  unfold controllerFault
  split
  · rename_i hpass
    split
    · rename_i hunit
      simp [hpass, hunit, eq_comm]
    · rename_i hunit
      split
      · rename_i hbank
        simp only [hpass, hunit, true_and, false_and, false_or, not_false_eq_true]
        simp [show 1024 < (plan d).cpp from hbank, eq_comm]
      · rename_i hbank
        simp only [hpass, hunit, true_and, false_and, false_or, not_false_eq_true]
        simp [show ¬ 1024 < (plan d).cpp from hbank]
  · rename_i hpass
    simp [hpass]

/-- Settles O21: the first controller that fails in table order, and the total where none does. -/
theorem validateReportsFirstFailure : Obligations.ValidateReportsFirstFailure := by
  intro maxChannels cfg c
  have hfirst : cfg.findSome? controllerFault = some c ↔
      ∃ (pre post : List Descriptor) (d : Descriptor), cfg = pre ++ d :: post ∧ cfgLegal pre ∧
        controllerFault d = some c := by
    rw [List.findSome?_eq_some_iff]
    constructor
    · rintro ⟨pre, d, post, hcfg, hd, hpre⟩
      exact ⟨pre, post, d, hcfg, hpre, hd⟩
    · rintro ⟨pre, post, d, hcfg, hpre, hd⟩
      exact ⟨pre, d, post, hcfg, hd, hpre⟩
  simp only [controllerFault_eq_some_iff] at hfirst
  refine Iff.trans ?_ (or_congr_left hfirst)
  unfold validate
  cases hfind : cfg.findSome? controllerFault with
  | some c' =>
    have hillegal : ¬ cfgLegal cfg := fun h => by
      rw [List.findSome?_eq_none_iff.2 h] at hfind
      cases hfind
    simp [hillegal]
  | none =>
    have hlegal : cfgLegal cfg := List.findSome?_eq_none_iff.1 hfind
    rw [and_iff_right hlegal]
    simp only [Option.ite_none_right_eq_some, Option.some.injEq, reduceCtorEq, false_or, eq_comm (a := Cause.addrRange)]

end Sys2Proof.Machine
end

section
/-! The staging port and its word (R32, R81), `INIT` (R202, R203), reset (R34, R200) and which act a step runs (R27). -/

namespace Sys2Proof.Machine

/-! The staging word. -/

@[simp] theorem dtypeCode_dtypeOfCode (t : BitVec 3) : dtypeCode (dtypeOfCode t) = t := by
  revert t
  decide

@[simp] theorem dtypeOfCode_dtypeCode (t : DeviceType) : dtypeOfCode (dtypeCode t) = t := by
  cases t <;> rfl

@[simp] theorem amodeOfCode_amodeCode (a : AddrMode) : amodeOfCode (amodeCode a) = a := by
  cases a <;> rfl

/-- The word of R81 put together from its fields. -/
def stagingWord (chW : Nat) (t : BitVec 3) (a : BitVec 2) (u : Byte) (n : Nat) : Nat :=
  t.toNat * 2 ^ (chW + 10) + a.toNat * 2 ^ (chW + 8) + u.toNat * 2 ^ chW + n

/-- The fields above the channel count, as one number. -/
def stagingHigh (t : BitVec 3) (a : BitVec 2) (u : Byte) : Nat := t.toNat * 1024 + a.toNat * 256 + u.toNat

theorem stagingHigh_lt (t : BitVec 3) (a : BitVec 2) (u : Byte) : stagingHigh t a u < 8192 := by
  have := t.isLt
  have := a.isLt
  have := u.isLt
  simp only [stagingHigh]
  omega

theorem stagingWord_eq (chW : Nat) (t : BitVec 3) (a : BitVec 2) (u : Byte) (n : Nat) :
    stagingWord chW t a u n = stagingHigh t a u * 2 ^ chW + n := by
  simp only [stagingWord, stagingHigh, Nat.pow_add]
  ring

section StagingWord

variable {chW n : Nat} (hn : n < 2 ^ chW) (t : BitVec 3) (a : BitVec 2) (u : Byte)

include hn

/-- Above bit `CH_W + j` of the word stands what is above bit `j` of its upper fields. -/
theorem stagingWord_div (j : Nat) : stagingWord chW t a u n / 2 ^ (chW + j) = stagingHigh t a u / 2 ^ j := by
  rw [stagingWord_eq, Nat.pow_add, ← Nat.div_div_eq_div_mul, Nat.mul_comm, Nat.mul_add_div (Nat.two_pow_pos chW),
    Nat.div_eq_of_lt hn, Nat.add_zero]

theorem stagingWord_mod : stagingWord chW t a u n % 2 ^ chW = n := by
  rw [stagingWord_eq, Nat.mul_comm, Nat.mul_add_mod, Nat.mod_eq_of_lt hn]

theorem stagingWord_dtype : BitVec.ofNat 3 (stagingWord chW t a u n / 2 ^ (chW + 10)) = t := by
  apply BitVec.eq_of_toNat_eq
  rw [stagingWord_div hn, BitVec.toNat_ofNat, stagingHigh]
  omega

theorem stagingWord_amode : BitVec.ofNat 2 (stagingWord chW t a u n / 2 ^ (chW + 8)) = a := by
  apply BitVec.eq_of_toNat_eq
  rw [stagingWord_div hn, BitVec.toNat_ofNat, stagingHigh]
  omega

theorem stagingWord_unit : BitVec.ofNat 8 (stagingWord chW t a u n / 2 ^ chW) = u := by
  apply BitVec.eq_of_toNat_eq
  have hdiv := stagingWord_div hn t a u 0
  rw [Nat.add_zero] at hdiv
  rw [hdiv, BitVec.toNat_ofNat, stagingHigh]
  omega

/-- The descriptor of a word holds the word's fields, read by their codes (R12, R81). -/
theorem unpackDescriptor_stagingWord :
    unpackDescriptor chW (stagingWord chW t a u n) =
      { dtype := dtypeOfCode t, amode := amodeOfCode a, unitId := u, chanCount := n } := by
  rw [unpackDescriptor, stagingWord_dtype hn, stagingWord_amode hn, stagingWord_unit hn, stagingWord_mod hn]

end StagingWord

/-- Settles O7: a word is read by its fields, and the word of a descriptor has the descriptor's codes in them. -/
theorem stagingWordHoldsTheDescriptor : Obligations.StagingWordHoldsTheDescriptor := by
  refine ⟨?fields, ?descriptor⟩
  case fields =>
    intro chW n t a u hn
    refine ⟨_, unpackDescriptor_stagingWord hn t a u, rfl, rfl, dtypeCode_dtypeOfCode t, ?_, ?_, ?_, ?_⟩
    all_goals
      rintro rfl
      rfl
  case descriptor =>
    intro chW d hd
    have hpack : packDescriptor chW d = stagingWord chW (dtypeCode d.dtype) (amodeCode d.amode) d.unitId d.chanCount :=
      rfl
    rw [hpack, unpackDescriptor_stagingWord hd, dtypeOfCode_dtypeCode, amodeOfCode_amodeCode, stagingWord_eq,
      Nat.pow_add]
    refine ⟨rfl, ?_⟩
    have hhigh := stagingHigh_lt (dtypeCode d.dtype) (amodeCode d.amode) d.unitId
    calc stagingHigh (dtypeCode d.dtype) (amodeCode d.amode) d.unitId * 2 ^ chW + d.chanCount
        < (stagingHigh (dtypeCode d.dtype) (amodeCode d.amode) d.unitId + 1) * 2 ^ chW := by
          rw [Nat.succ_mul]
          omega
      _ ≤ 2 ^ 13 * 2 ^ chW := Nat.mul_le_mul_right _ hhigh

/-! Which act a step runs. -/

/-- Settles O25: the staging table is read after one write to it. -/
theorem stagingChangesOneEntry : Obligations.StagingChangesOneEntry := by
  intro s idx w q hwf hidle hpending
  refine ⟨stageWrite idx w { s with pending := q }, ?_, fun c => ?_, rfl⟩
  · simp [step, hpending, act, hidle]
  · exact Sparse.get_put idx c _ hwf

/-- Settles O49: an idle block accepts the request. -/
theorem stepRunsRequestedOperation : Obligations.StepRunsRequestedOperation := by
  intro s code p q i hpending hidle hdecode
  obtain rfl : decodePort code = i := by simpa [decode] using hdecode
  simp [step, hpending, act, request, hidle, accept]

/-- Settles O51: a busy block takes the request off the line and does no more. -/
theorem stepIgnoresRequestsWhileBusy : Obligations.StepIgnoresRequestsWhileBusy := by
  refine ⟨fun s hpending => by rw [step, hpending], ?_⟩
  intro s code p q hpending hbusy
  simp [step, hpending, act, request, hbusy]

/-! Reset. -/

/-- Only entry 0 of the map after reset is set (R17, R34). -/
theorem occBit_of_occ_eq_one {s : State} (h : s.occ = 1) (u : Byte) : s.occBit u = decide (u = 0) := by
  rw [State.occBit, h, show (1 : BitVec 255) = 1#255 from rfl, BitVec.getLsbD_one]
  simp only [Nat.zero_lt_succ, decide_true, Bool.true_and, decide_eq_decide]
  exact BitVec.toNat_inj (y := 0)

/-- Settles O26: both states hold the same values, and the map's only bit is that of entry 0. -/
theorem resetGivesTheResetValues : Obligations.ResetGivesTheResetValues := by
  refine ⟨⟨rfl, fun _ => rfl, rfl, rfl, rfl, fun u _ => occBit_of_occ_eq_one rfl u, rfl, rfl, rfl⟩, ?_⟩
  intro s q hpending
  have hstep : step s = .next (hardReset { s with pending := q }) := by rw [step, hpending]; rfl
  exact ⟨_, hstep, rfl, fun _ => rfl, rfl, rfl, rfl, fun u _ => occBit_of_occ_eq_one rfl u, rfl, rfl, rfl, rfl, rfl⟩

/-! `INIT`. -/

section Init

variable {s : State}

theorem exec_init (s : State) : exec .init s = .next (initOp s) := rfl

/-- An `INIT` whose table passes (R202). -/
theorem initOp_of_valid (h : validate s.par.maxChannels (stagedTable s) = none) :
    initOp s = finish .done (calcTotal (latchConfig s)) := by simp [initOp, h]

/-- An `INIT` whose table fails a check (R203); only an `ADDR_RANGE` loses `TOTAL`. -/
theorem initOp_of_invalid {c : Cause} (h : validate s.par.maxChannels (stagedTable s) = some c) :
    initOp s = raise c
      (if c = .addrRange then loseTotal (calcTotal (latchConfig s)) else calcTotal (latchConfig s)) := by
  cases c <;> simp [initOp, h]

end Init

/-- Settles O23: the latch, then the totals of what was latched. -/
theorem initLatchesLegalTable : Obligations.InitLatchesLegalTable := by
  intro s hvalid
  refine ⟨by simp [stagedTable], fun c hc => by simp [stagedTable, hc], ?_⟩
  rw [exec_init, initOp_of_valid hvalid]
  rfl

/-- Settles O24: the fault entry comes after the latch, which has cleared `FAULT`. -/
theorem initFaultsOnIllegalTable : Obligations.InitFaultsOnIllegalTable := by
  intro s c hinvalid
  refine ⟨_, exec_init s, ?_⟩
  rw [initOp_of_invalid hinvalid]
  by_cases hc : c = .addrRange <;> simp [hc]

end Sys2Proof.Machine
end

section
/-! How the host operations end: the guards, the writes of the passes, and the one `Done` (R110, R125, R130, R170, R184
to R188). -/

namespace Sys2Proof.Machine

/-! What the passes of an operation do to the state: writes, and nothing but the history and the buffer. -/

/-- From `s` to `t` only writes went out; the buffer and the history apart, nothing else changed. -/
def OnlyWrites (s t : State) : Prop :=
  ∃ (buf : List Byte) (last : Memory) (writes : List (List Byte)),
    t = { s with cmdbuf := buf, last := last, trace := s.trace ++ writes.map .txWrite }

theorem OnlyWrites.refl (s : State) : OnlyWrites s s := ⟨s.cmdbuf, s.last, [], by simp⟩

theorem OnlyWrites.trans {s t u : State} (h : OnlyWrites s t) (k : OnlyWrites t u) : OnlyWrites s u := by
  obtain ⟨_, _, ws, rfl⟩ := h
  obtain ⟨buf, last, ws', rfl⟩ := k
  exact ⟨buf, last, ws ++ ws', by simp⟩

/-- A flow from `s` goes on after writes only, or a fault entry ends it after writes only (R184 (2)). It says more than
`Flow.EndsByRaise`: which events went out, and that `busy` is as it was. -/
def Flow.OnlyWrites (s : State) : Flow → Prop
  | .on t => Machine.OnlyWrites s t
  | .ended t => ∃ (c : Cause) (u : State), Machine.OnlyWrites s u ∧ t = raise c u

theorem Flow.OnlyWrites.after {s t : State} {x : Flow} (hst : Machine.OnlyWrites s t) (hx : x.OnlyWrites t) :
    x.OnlyWrites s := by
  cases x with
  | on u => exact hst.trans hx
  | ended u =>
    obtain ⟨c, v, htv, rfl⟩ := hx
    exact ⟨c, v, hst.trans htv, rfl⟩

theorem Flow.OnlyWrites.andThen {s : State} {x : Flow} {f : State → Flow} (hx : x.OnlyWrites s)
    (hf : ∀ t, (f t).OnlyWrites t) : (x.andThen f).OnlyWrites s := by
  cases x with
  | on t => exact .after hx (hf t)
  | ended t => exact hx

theorem runEach_onlyWrites {α : Type} {f : α → State → Flow} (hf : ∀ a s, (f a s).OnlyWrites s) (as : List α)
    (s : State) : (runEach f as s).OnlyWrites s := by
  induction as generalizing s with
  | nil => exact .refl s
  | cons a as ih => exact (hf a s).andThen ih

theorem emit_onlyWrites (bytes : List Byte) (s : State) : (emit bytes s).OnlyWrites s := by
  by_cases h : s.cmdbuf.length + bytes.length ≤ Config.cmdBufBytes
  · rw [emit_of_fits h]
    exact ⟨s.cmdbuf ++ bytes, s.last, [], by simp⟩
  · rw [emit_of_full (by omega)]
    exact ⟨.capacity, s, .refl s, rfl⟩

theorem closePass_onlyWrites (s : State) : (closePass s).OnlyWrites s :=
  (emit_onlyWrites terminator s).andThen fun t => ⟨[], t.last, [t.cmdbuf], rfl⟩

theorem writePass_onlyWrites (banks : List Bank) (s : State) : (writePass banks s).OnlyWrites s := by
  unfold writePass
  split
  · exact closePass_onlyWrites s
  · exact .refl s

theorem encodePass_onlyWrites (p : PassSpec) (s : State) : (encodePass p s).OnlyWrites s :=
  .andThen (.after ⟨[], (groupingOf s p).last, [], by simp [beginPass]⟩ (runEach_onlyWrites emit_onlyWrites _ _))
    (writePass_onlyWrites _)

theorem allOffPass_onlyWrites (p : PassSpec) (s : State) : (allOffPass p s).OnlyWrites s := by
  unfold allOffPass
  split
  · exact .refl s
  · exact .andThen (.after ⟨[], s.last, [], by simp [clearBuf]⟩ (runEach_onlyWrites emit_onlyWrites _ _))
      closePass_onlyWrites

/-- Neither way of a flow raises `busy`. -/
theorem Flow.OnlyWrites.busy {s : State} {x : Flow} (hx : x.OnlyWrites s) (hidle : s.busy = false) :
    x.state.busy = false := by
  cases x with
  | on t =>
    obtain ⟨_, _, _, rfl⟩ := hx
    exact hidle
  | ended t =>
    obtain ⟨_, _, _, rfl⟩ := hx
    rfl

/-! The ways of the operations. -/

/-- The ways of a `FRAME`, in the order of its guards (R110, R188). -/
inductive FrameCase (s : State) : Prop where
  | fault : s.faultReg ≠ 0 → frameOp s = finish .faulted s → FrameCase s
  | notReady : frameOp s = finish .skipNotReady s → FrameCase s
  | backpressure : frameOp s = finish .skipBackpressure (output (.log .backpressure) s) → FrameCase s
  | outOfRange : frameOp s = raise .addrRange s → FrameCase s
  | runs : s.faultReg = 0 → frameOutOfRange s = false → frameOp s = frameBody s → FrameCase s

theorem frameOp_cases (s : State) : FrameCase s := by
  by_cases hfault : s.faultReg = 0
  case neg => exact .fault hfault (frameOp_of_fault hfault)
  cases hready : s.ports.ready with
  | false => exact .notReady (frameOp_of_not_ready hfault hready)
  | true =>
    cases hempty : s.ports.txEmpty with
    | false => exact .backpressure (frameOp_of_not_txEmpty hfault hready hempty)
    | true =>
      cases hrange : frameOutOfRange s with
      | true => exact .outOfRange (frameOp_of_outOfRange hfault hready hempty hrange)
      | false => exact .runs hfault hrange (frameOp_of_guards_pass hfault hready hempty hrange)

/-- The body of `FRAME` is over after writes only, at its end or by a fault entry (R125, R184). -/
theorem frameBody_onlyWrites (s : State) :
    ∃ u, OnlyWrites (startFrame s) u ∧ (frameBody s = endFrame u ∨ ∃ c, frameBody s = raise c u) := by
  have hrun := runEach_onlyWrites encodePass_onlyWrites (layout s.ports.opStart s.cfg) (startFrame s)
  unfold frameBody
  cases hr : runEach encodePass (layout s.ports.opStart s.cfg) (startFrame s) with
  | on u =>
    rw [hr] at hrun
    exact ⟨u, hrun, .inl rfl⟩
  | ended t =>
    rw [hr] at hrun
    obtain ⟨c, u, hwrites, rfl⟩ := hrun
    exact ⟨u, hwrites, .inr ⟨c, rfl⟩⟩

/-- The ways of an `ALLOFF` (R170): a guard ends it, or it is over after writes only. -/
theorem allOffOp_cases (s : State) :
    (∃ st, allOffOp s = finish st s) ∨
      ∃ u, OnlyWrites s u ∧ (allOffOp s = endAllOff u ∨ ∃ c, allOffOp s = raise c u) := by
  by_cases hfault : s.faultReg = 0
  case neg => exact .inl ⟨_, allOffOp_of_fault hfault⟩
  cases hready : s.ports.ready with
  | false => exact .inl ⟨_, allOffOp_of_not_ready hfault hready⟩
  | true =>
    have hbody : allOffOp s = allOffBody s := by simp [allOffOp, hfault, hready]
    have hrun := runEach_onlyWrites allOffPass_onlyWrites (layout 0 s.cfg) s
    rw [hbody, allOffBody]
    cases hr : runEach allOffPass (layout 0 s.cfg) s with
    | on u =>
      rw [hr] at hrun
      exact .inr ⟨u, hrun, .inl rfl⟩
    | ended t =>
      rw [hr] at hrun
      obtain ⟨c, u, hwrites, rfl⟩ := hrun
      exact .inr ⟨u, hwrites, .inr ⟨c, rfl⟩⟩

/-- Settles O30: the address check is the last test before the body. -/
theorem frameFaultsOutOfRange : Obligations.FrameFaultsOutOfRange := by
  intro s hfault hready hempty hrange
  have hout : frameOutOfRange s = true := by simpa [frameOutOfRange] using hrange
  have hnext : exec .frame s = .next (raise .addrRange s) :=
    exec_frame_eq_next.2 ⟨by simp [strayLayout, hout], frameOp_of_outOfRange hfault hready hempty hout⟩
  rw [hnext, raise, if_pos hfault]
  rfl

/-! What a `FRAME` leaves alone. -/

/-- The settle timer is left alone, and neither a `Heartbeat` nor a `Settle` is raised. -/
def NoSettle (s t : State) : Prop :=
  t.settleTimer = s.settleTimer ∧
    ∃ evs, t.trace = s.trace ++ evs ∧ Event.heartbeat ∉ evs ∧ Event.settle ∉ evs

/-- The end of an operation after writes only. -/
theorem OnlyWrites.noSettle {s u t : State} (hwrites : OnlyWrites (startFrame s) u)
    (hend : t = endFrame u ∨ ∃ c, t = raise c u) : NoSettle s t := by
  obtain ⟨_, _, ws, rfl⟩ := hwrites
  rcases hend with rfl | ⟨c, rfl⟩
  · exact ⟨rfl, ws.map .txWrite ++ [.done .done], by simp, by simp, by simp⟩
  · exact ⟨rfl, ws.map .txWrite ++ [.done .faulted], by simp, by simp, by simp⟩

theorem frameOp_noSettle (s : State) : NoSettle s (frameOp s) := by
  rcases frameOp_cases s with ⟨-, heq⟩ | heq | heq | heq | ⟨-, -, heq⟩ <;> rw [heq]
  · exact ⟨rfl, _, rfl, by simp, by simp⟩
  · exact ⟨rfl, _, rfl, by simp, by simp⟩
  · exact ⟨rfl, [.log .backpressure, .done .skipBackpressure], by simp, by simp, by simp⟩
  · exact ⟨rfl, _, rfl, by simp, by simp⟩
  · obtain ⟨u, hwrites, hend⟩ := frameBody_onlyWrites s
    exact hwrites.noSettle hend

/-- Settles O41: the registers by what `FRAME` keeps, the timer and the events by the ways it ends. -/
theorem frameLeavesConfigurationAlone : Obligations.FrameLeavesConfigurationAlone := by
  intro s t hexec
  obtain ⟨-, rfl⟩ := exec_frame_eq_next.1 hexec
  have hkeeps := frameOp_keeps s
  obtain ⟨htimer, htrace⟩ := frameOp_noSettle s
  exact ⟨hkeeps.par, hkeeps.cfg, hkeeps.total, hkeeps.occ, hkeeps.staged, hkeeps.ports, hkeeps.pending, htimer, htrace⟩

/-! The one `Done` of an operation. -/

/-- From `s` to `t` no `Done` went out. -/
def NoDone (s t : State) : Prop := ∃ evs, t.trace = s.trace ++ evs ∧ ∀ x, Event.done x ∉ evs

/-- The operation begun in `s` is over in `t`, with its one `Done` last (R32, R186). -/
def EndsWithOneDone (s t : State) : Prop :=
  t.busy = false ∧ ∃ (evs : List Event) (st : Status), t.trace = s.trace ++ evs ++ [.done st] ∧ ∀ x, Event.done x ∉ evs

theorem NoDone.refl (s : State) : NoDone s s := ⟨[], by simp, by simp⟩

theorem OnlyWrites.noDone {s t : State} (h : OnlyWrites s t) : NoDone s t := by
  obtain ⟨_, _, ws, rfl⟩ := h
  exact ⟨ws.map .txWrite, rfl, by simp⟩

theorem NoDone.finish {s u : State} (h : NoDone s u) (st : Status) : EndsWithOneDone s (finish st u) := by
  obtain ⟨evs, htrace, hnone⟩ := h
  exact ⟨rfl, evs, st, by rw [finish_trace, htrace], hnone⟩

theorem NoDone.raise {s u : State} (h : NoDone s u) (c : Cause) : EndsWithOneDone s (raise c u) := by
  obtain ⟨evs, htrace, hnone⟩ := h
  exact ⟨rfl, evs, .faulted, by rw [raise_trace, htrace], hnone⟩

theorem initOp_endsWithOneDone (s : State) : EndsWithOneDone s (initOp s) := by
  cases hvalid : validate s.par.maxChannels (stagedTable s) with
  | none =>
    rw [initOp_of_valid hvalid]
    exact NoDone.finish (NoDone.refl s) .done
  | some c =>
    rw [initOp_of_invalid hvalid]
    split
    · exact NoDone.raise (NoDone.refl s) c
    · exact NoDone.raise (NoDone.refl s) c

theorem frameOp_endsWithOneDone (s : State) : EndsWithOneDone s (frameOp s) := by
  rcases frameOp_cases s with ⟨-, heq⟩ | heq | heq | heq | ⟨-, -, heq⟩ <;> rw [heq]
  · exact (NoDone.refl s).finish _
  · exact (NoDone.refl s).finish _
  · exact NoDone.finish ⟨[.log .backpressure], rfl, by simp⟩ _
  · exact (NoDone.refl s).raise _
  · obtain ⟨u, hwrites, hend | ⟨c, hraise⟩⟩ := frameBody_onlyWrites s
    · rw [hend]
      exact hwrites.noDone.finish .done
    · rw [hraise]
      exact hwrites.noDone.raise c

theorem allOffOp_endsWithOneDone (s : State) : EndsWithOneDone s (allOffOp s) := by
  rcases allOffOp_cases s with ⟨st, heq⟩ | ⟨u, hwrites, hend | ⟨c, hraise⟩⟩
  · rw [heq]
    exact (NoDone.refl s).finish st
  · rw [hend]
    obtain ⟨evs, htrace, hnone⟩ := hwrites.noDone
    exact ⟨rfl, evs ++ [.heartbeat, .settle], .done, by simp [endAllOff, htrace], by simp [hnone]⟩
  · rw [hraise]
    exact hwrites.noDone.raise c

/-- Settles O54, by the four operations. -/
theorem operationEndsWithOneDone : Obligations.OperationEndsWithOneDone := by
  intro s t code p q hpending hidle hstep
  rw [stepRunsRequestedOperation s code p q _ hpending hidle rfl] at hstep
  change EndsWithOneDone (accept p { s with pending := q }) t
  rcases opCode_cases code with rfl | rfl | rfl | rfl
  · cases hstep
    exact (NoDone.refl _).finish .done
  · cases hstep
    exact initOp_endsWithOneDone _
  · obtain ⟨-, rfl⟩ := exec_frame_eq_next.1 hstep
    exact frameOp_endsWithOneDone _
  · cases hstep
    exact allOffOp_endsWithOneDone _

end Sys2Proof.Machine
end

section
/-! What every step keeps: the invariant, the trace and the parameters, and the registers that only `INIT`, `FRAME` and
reset write (R11 to R17, R184, R189, R200). -/

namespace Sys2Proof.Machine

/-! What a step keeps that is no `INIT` and no reset. -/

/-- From `s` to `t` at most the input levels, the coming acts, the staging table and `busy` changed. -/
def OnlyInterface (s t : State) : Prop :=
  ∃ (ports : Ports) (pending : List Stimulus) (staged : List (Nat × Descriptor)) (busy : Bool),
    t = { s with ports := ports, pending := pending, staged := staged, busy := busy }

theorem requeue_onlyInterface (rest : List Byte) (q : List Stimulus) (s : State) :
    OnlyInterface s (requeue rest { s with pending := q }) := by
  rw [requeue_eq]
  exact ⟨_, _, _, _, rfl⟩

/-- A step that does not reconfigure changes the interface and then keeps what every instruction but `INIT` keeps; if it
is no `FRAME`, the history and `FORCE` too. -/
theorem step_keeps {s t : State} (hcfg : nextReconfigures s = false) (h : step s = .next t) :
    ∃ s', OnlyInterface s s' ∧ Keeps s' t ∧ (nextIsFrame s = false → KeepsHistory s' t) := by
  cases step_cases h with
  | idle hp ht =>
    subst ht
    exact ⟨t, ⟨_, _, _, _, rfl⟩, .refl t, fun _ => .refl t⟩
  | staged idx w q hp ht =>
    refine ⟨t, ?_, .refl t, fun _ => .refl t⟩
    rw [ht]
    split
    · exact ⟨_, _, _, _, rfl⟩
    · exact ⟨_, _, _, _, rfl⟩
  | reset q hp ht => simp [nextReconfigures, hp] at hcfg
  | wire bytes rest q i hp hd hkeeps => exact ⟨_, requeue_onlyInterface rest q s, hkeeps.keeps, fun _ => hkeeps⟩
  | ignored code p q hp hb ht =>
    subst ht
    exact ⟨_, ⟨_, _, _, _, rfl⟩, .refl _, fun _ => .refl _⟩
  | nop p q hp hb ht =>
    subst ht
    exact ⟨_, ⟨_, _, _, _, rfl⟩, (finish_keepsHistory _ _).keeps, fun _ => finish_keepsHistory _ _⟩
  | init p q hp hb ht => simp [nextReconfigures, hp, hb] at hcfg
  | frame p q hp hb hs ht =>
    subst ht
    refine ⟨_, ⟨_, _, _, _, rfl⟩, frameOp_keeps _, fun hframe => ?_⟩
    simp [nextIsFrame, hp, hb] at hframe
  | alloff p q hp hb ht =>
    subst ht
    exact ⟨_, ⟨_, _, _, _, rfl⟩, (allOffOp_keepsHistory _).keeps, fun _ => allOffOp_keepsHistory _⟩

/-- Settles O57: no instruction but `INIT` replaces a fault that is set. -/
theorem faultStaysUntilInitOrReset : Obligations.FaultStaysUntilInitOrReset := by
  intro s t hfault hcfg hstep
  obtain ⟨_, ⟨_, _, _, _, rfl⟩, hkeeps, -⟩ := step_keeps hcfg hstep
  exact hkeeps.fault.resolve_right fun hclear => hfault hclear.1

/-- Settles O58: a step that does not reconfigure keeps the three. -/
theorem configurationChangesOnlyByInit : Obligations.ConfigurationChangesOnlyByInit := by
  intro s t hcfg hstep
  obtain ⟨_, ⟨_, _, _, _, rfl⟩, hkeeps, -⟩ := step_keeps hcfg hstep
  exact ⟨hkeeps.cfg, hkeeps.total, hkeeps.occ⟩

/-- Settles O59: the steps left are those that keep the history. -/
theorem historyChangesOnlyByFrameOrInit : Obligations.HistoryChangesOnlyByFrameOrInit := by
  intro s t hcfg hframe hstep
  obtain ⟨_, ⟨_, _, _, _, rfl⟩, -, hhistory⟩ := step_keeps hcfg hstep
  exact ⟨(hhistory hframe).last, (hhistory hframe).force⟩

/-! The trace and the parameters. -/

/-- A step that reconfigures is a reset or an `INIT`. -/
theorem step_of_reconfigures {s t : State} (hcfg : nextReconfigures s = true) (h : step s = .next t) :
    (∃ q, t = hardReset { s with pending := q }) ∨ ∃ p q, t = initOp (accept p { s with pending := q }) := by
  cases step_cases h with
  | reset q hp ht => exact .inl ⟨q, ht⟩
  | init p q hp hb ht => exact .inr ⟨p, q, ht⟩
  | ignored code p q hp hb ht => simp [nextReconfigures, hp, hb] at hcfg
  | idle hp | staged _ _ q hp | wire _ _ q _ hp | nop _ q hp | frame _ q hp | alloff _ q hp =>
    simp [nextReconfigures, hp] at hcfg

theorem initOp_par (s : State) : (initOp s).par = s.par := by
  cases hvalid : validate s.par.maxChannels (stagedTable s) with
  | none => rw [initOp_of_valid hvalid]; rfl
  | some c =>
    rw [initOp_of_invalid hvalid]
    split <;> rfl

/-- Settles O55: what does not reconfigure only appends, a reset appends nothing, and `INIT` appends its `Done`. -/
theorem traceOnlyGrows : Obligations.TraceOnlyGrows := by
  intro s t hstep
  cases hcfg : nextReconfigures s with
  | false =>
    obtain ⟨_, ⟨_, _, _, _, rfl⟩, hkeeps, -⟩ := step_keeps hcfg hstep
    exact ⟨hkeeps.par, hkeeps.trace⟩
  | true =>
    rcases step_of_reconfigures hcfg hstep with ⟨q, rfl⟩ | ⟨p, q, rfl⟩
    · exact ⟨rfl, [], by simp⟩
    · obtain ⟨-, evs, st, htrace, -⟩ := initOp_endsWithOneDone (accept p { s with pending := q })
      exact ⟨initOp_par _, evs ++ [.done st], by rw [htrace, List.append_assoc]; rfl⟩

/-! The history memory through a `FRAME`. -/

/-- The history is in canonical form and lists only addresses that exist (R13). -/
def HistoryIn (maxChannels : Nat) (m : Memory) : Prop := m.wf ∧ ∀ c ∈ m, c.1 < maxChannels

theorem HistoryIn.write {maxChannels : Nat} {m : Memory} (h : HistoryIn maxChannels m) {a : Nat}
    (ha : a < maxChannels) (v : Byte) : HistoryIn maxChannels (m.write a v) := by
  obtain ⟨hwf, hin⟩ := h
  refine ⟨Memory.wf_write a v hwf, fun c hc => ?_⟩
  rcases Memory.mem_write hc with hc | rfl
  · exact hin c hc
  · exact ha

/-- A pass writes the history at its own channels only (R42, R46). -/
theorem groupPass_historyIn {maxChannels : Nat} {last : Memory} (h : HistoryIn maxChannels last)
    {src : Nat → Byte} {g0 len : Nat} (hrange : g0 + len ≤ maxChannels) (force : Bool) :
    HistoryIn maxChannels (groupPass src g0 len force last).last := by
  unfold groupPass
  refine List.foldlRecOn (motive := fun g : Grouping => HistoryIn maxChannels g.last) _ _ h fun g hg i hi => ?_
  have hlt := List.mem_range.1 hi
  exact hg.write (by omega) _

/-- A pass leaves the history as its grouping does; the commands do not touch it. -/
theorem encodePass_last (p : PassSpec) (s : State) : (encodePass p s).state.last = (groupingOf s p).last := by
  have hkeeps : KeepsHistory (beginPass p s) (encodePass p s).state := by
    refine andThen_keepsHistory (emits_keepsHistory _ _) fun t => ?_
    unfold writePass
    split
    · exact closePass_keepsHistory t
    · exact .refl t
  rw [hkeeps.last, beginPass_last]

/-- Passes inside the history keep it so, and the parameters. -/
theorem runEach_encodePass_historyIn {maxChannels : Nat} {ps : List PassSpec}
    (hps : ∀ p ∈ ps, p.g0 + p.len ≤ maxChannels) {s : State} (h : HistoryIn maxChannels s.last) :
    HistoryIn maxChannels (runEach encodePass ps s).state.last := by
  have hpass : ∀ p ∈ ps, ∀ t : State, HistoryIn maxChannels t.last →
      HistoryIn maxChannels (encodePass p t).state.last := by
    intro p hp t ht
    rw [encodePass_last]
    exact groupPass_historyIn ht (hps p hp) _
  exact runEach_rel_mem (R := fun t u => HistoryIn maxChannels t.last → HistoryIn maxChannels u.last)
    (fun _ => id) (fun htu huv ht => huv (htu ht)) hpass s h

/-- `FRAME` keeps the history inside the addresses that exist, because the address check covers the layout (R51,
R130). -/
theorem frameOp_historyIn {s : State} (h : HistoryIn s.par.maxChannels s.last)
    (hcovers : s.faultReg = 0 → effTotal s.cfg ≤ s.total) : HistoryIn s.par.maxChannels (frameOp s).last := by
  rcases frameOp_cases s with ⟨-, heq⟩ | heq | heq | heq | ⟨hfault, hrange, heq⟩ <;> rw [heq]
  case runs =>
    obtain ⟨-, hlast⟩ := frameOutOfRange_eq_false_iff.1 hrange
    have hps : ∀ p ∈ layout s.ports.opStart s.cfg, p.g0 + p.len ≤ s.par.maxChannels := by
      intro p hp
      have := (layout_bounds hp).2
      have := hcovers hfault
      omega
    have hrun := runEach_encodePass_historyIn hps (s := startFrame s) h
    unfold frameBody
    cases hr : runEach encodePass (layout s.ports.opStart s.cfg) (startFrame s) with
    | on t => rw [hr] at hrun; exact hrun
    | ended t => rw [hr] at hrun; exact hrun
  all_goals exact h

/-! The invariant. -/

/-- Settles O52: the empty table has no pass, no channel and no unit but entry 0. -/
theorem invariantHoldsAtReset : Obligations.InvariantHoldsAtReset where
  widths := Config.maxChannels_lt
  lastWf := reset_last_wf
  lastIn := nofun
  stagedWf := Sparse.wf_nil
  occMap := rfl
  faultCode := Nat.zero_le _
  legal := fun _ => ⟨nofun, rfl, Nat.zero_le _⟩
  bufBound := Nat.zero_le _
  idle := rfl
  timerIdle := rfl

/-- The invariant does not read the input levels and the coming acts. -/
theorem BlockInv.interface {s : State} (h : BlockInv s) (p : Ports) (q : List Stimulus) :
    BlockInv { s with ports := p, pending := q } :=
  ⟨h.widths, h.lastWf, h.lastIn, h.stagedWf, h.occMap, h.faultCode, h.legal, h.bufBound, h.idle, h.timerIdle⟩

/-- Nor does it read `busy`, but that the block is idle. -/
theorem BlockInv.accepted {s : State} (h : BlockInv s) (p : Ports) (q : List Stimulus) :
    BlockInv { s with ports := p, pending := q, busy := false } :=
  ⟨h.widths, h.lastWf, h.lastIn, h.stagedWf, h.occMap, h.faultCode, h.legal, h.bufBound, rfl, h.timerIdle⟩

/-- What keeps everything but the history keeps the invariant, if it keeps the history inside its addresses and ends
idle; it may start busy. -/
theorem BlockInv.of_keeps {s t : State} (h : BlockInv { s with busy := false }) (hkeeps : Keeps s t)
    (hidle : t.busy = false) (hhistory : HistoryIn s.par.maxChannels t.last) : BlockInv t where
  widths := by rw [hkeeps.par]; exact h.widths
  lastWf := hhistory.1
  lastIn := by rw [hkeeps.par]; exact hhistory.2
  stagedWf := by rw [hkeeps.staged]; exact h.stagedWf
  occMap := by rw [hkeeps.occ, hkeeps.cfg]; exact h.occMap
  faultCode := by
    rcases hkeeps.fault with hsame | ⟨-, -, hcode⟩
    · rw [hsame]; exact h.faultCode
    · exact hcode
  legal := fun hclear => by
    rcases hkeeps.fault with hsame | ⟨-, hset, -⟩
    · rw [hkeeps.cfg, hkeeps.total, hkeeps.par]
      exact h.legal (hsame ▸ hclear)
    · exact absurd hclear hset
  bufBound := hkeeps.buf h.bufBound
  idle := hidle
  timerIdle := hkeeps.timer h.timerIdle

theorem BlockInv.of_keepsHistory {s t : State} (h : BlockInv { s with busy := false }) (hkeeps : KeepsHistory s t)
    (hidle : t.busy = false) : BlockInv t :=
  h.of_keeps hkeeps.keeps hidle (by rw [hkeeps.last]; exact ⟨h.lastWf, h.lastIn⟩)

/-- A staging write keeps the invariant (R32). -/
theorem BlockInv.stageWrite {s : State} (h : BlockInv s) (idx w : Nat) : BlockInv (stageWrite idx w s) :=
  ⟨h.widths, h.lastWf, h.lastIn, Sparse.wf_put _ _ h.stagedWf, h.occMap, h.faultCode, h.legal, h.bufBound, h.idle,
    h.timerIdle⟩

/-- Reset sets up the invariant from any parameters and any staging table (R200). -/
theorem BlockInv.hardReset {s : State} (h : BlockInv s) : BlockInv (hardReset s) :=
  ⟨h.widths, Memory.wf_empty, nofun, h.stagedWf, rfl, Nat.zero_le _, fun _ => ⟨nofun, rfl, Nat.zero_le _⟩,
    Nat.zero_le _, rfl, rfl⟩

/-- `INIT` sets up the invariant: a table that passes is legal and in range, one that fails leaves a fault (R202,
R203). -/
theorem BlockInv.initOp {s : State} (h : BlockInv { s with busy := false }) : BlockInv (initOp s) := by
  cases hvalid : validate s.par.maxChannels (stagedTable s) with
  | none =>
    rw [initOp_of_valid hvalid]
    obtain ⟨hlegal, htotal⟩ := validate_eq_none hvalid
    exact ⟨h.widths, Memory.wf_empty, nofun, h.stagedWf, rfl, Nat.zero_le _, fun _ => ⟨hlegal, rfl, htotal⟩, h.bufBound,
      rfl, h.timerIdle⟩
  | some c =>
    rw [initOp_of_invalid hvalid]
    split
    all_goals
      exact ⟨h.widths, Memory.wf_empty, nofun, h.stagedWf, rfl, c.code_le_four,
        fun hclear => absurd hclear c.code_ne_zero, Nat.zero_le _, rfl, h.timerIdle⟩

/-- A wire command does not raise `busy`. -/
theorem wire_busy {i : Instr} (hwire : i.isWire = true) {s t : State} (h : exec i s = .next t)
    (hidle : s.busy = false) : t.busy = false := by
  by_cases hend : i = .endWrite
  · subst hend
    cases h
    exact (closePass_onlyWrites s).busy hidle
  · rw [exec_wire hwire hend, command] at h
    split at h
    · cases h
    · cases h
      exact (emit_onlyWrites _ s).busy hidle

/-- Settles O53, by the nine cases of a step. -/
theorem invariantKeptByEveryStep : Obligations.InvariantKeptByEveryStep := by
  intro s t h hstep
  have haccept : ∀ p q, BlockInv { accept p { s with pending := q } with busy := false } := h.accepted
  cases step_cases hstep with
  | idle hp ht =>
    rw [ht]
    exact h
  | staged idx w q hp ht =>
    rw [ht, if_neg (by simp [h.idle])]
    exact (h.interface s.ports q).stageWrite idx w
  | reset q hp ht =>
    rw [ht]
    exact (h.interface s.ports q).hardReset
  | wire bytes rest q i hp hd hkeeps =>
    rw [stepRunsPresentedCommand s bytes rest q i hp hd] at hstep
    rw [requeue_eq] at hkeeps
    have hbusy : t.busy = false := wire_busy (decodeWire_isWire hd) hstep h.idle
    refine BlockInv.of_keepsHistory ?_ hkeeps hbusy
    exact h.accepted s.ports _
  | ignored code p q hp hb ht =>
    rw [h.idle] at hb
    cases hb
  | nop p q hp hb ht =>
    rw [ht]
    exact (haccept p q).of_keepsHistory (finish_keepsHistory _ _) rfl
  | init p q hp hb ht =>
    rw [ht]
    exact (haccept p q).initOp
  | frame p q hp hb hs ht =>
    rw [ht]
    refine (haccept p q).of_keeps (frameOp_keeps _) (frameOp_endsWithOneDone _).1
      (frameOp_historyIn ⟨h.lastWf, h.lastIn⟩ fun hclear => ?_)
    obtain ⟨-, htotal, -⟩ := h.legal hclear
    exact htotal.ge
  | alloff p q hp hb ht =>
    rw [ht]
    exact (haccept p q).of_keepsHistory (allOffOp_keepsHistory _) (allOffOp_endsWithOneDone _).1

/-! The stops. -/

/-- The invariant lets no layout stray (log 14). -/
theorem BlockInv.strayLayout {s : State} (h : BlockInv s) (p : Ports) (q : List Stimulus) :
    strayLayout (accept p { s with pending := q }) = false := by
  by_cases hfault : s.faultReg = 0
  · obtain ⟨-, htotal, -⟩ := h.legal hfault
    exact strayLayout_of_covers htotal.ge
  · exact strayLayout_of_guarded (.inl hfault)

/-- A host operation answers a next state where the layout is not stray, and never refuses. -/
theorem exec_decodePort (code : BitVec 2) (s : State) :
    (∃ t, exec (decodePort code) s = .next t) ∨
      strayLayout s = true ∧ exec (decodePort code) s = .fault .absentAddress := by
  rcases opCode_cases code with rfl | rfl | rfl | rfl
  · exact .inl ⟨_, rfl⟩
  · exact .inl ⟨_, rfl⟩
  · change (∃ t, execFrame s = .next t) ∨ strayLayout s = true ∧ execFrame s = .fault .absentAddress
    unfold execFrame
    cases strayLayout s with
    | false => exact .inl ⟨_, rfl⟩
    | true => exact .inr ⟨rfl, rfl⟩
  · exact .inl ⟨_, rfl⟩

/-- A step for an act other than wire bytes answers a next state, or a `FRAME` has a stray layout. -/
theorem step_of_nextIsHostAct {s : State} (hact : nextIsHostAct s = true) :
    (∃ t, step s = .next t) ∨
      ∃ p q, strayLayout (accept p { s with pending := q }) = true ∧ step s = .fault .absentAddress := by
  cases hp : s.pending with
  | nil => exact .inl ⟨s, by rw [step, hp]⟩
  | cons x q =>
    cases x with
    | stage idx w => exact .inl ⟨_, by rw [step, hp]; rfl⟩
    | rst => exact .inl ⟨_, by rw [step, hp]; rfl⟩
    | wire bytes => simp [nextIsHostAct, hp] at hact
    | op code p =>
      cases hb : s.busy with
      | true => exact .inl ⟨_, stepIgnoresRequestsWhileBusy.2 s code p q hp hb⟩
      | false =>
        have hrun : step s = exec (decodePort code) (accept p { s with pending := q }) :=
          stepRunsRequestedOperation s code p q _ hp hb rfl
        rw [hrun]
        rcases exec_decodePort code (accept p { s with pending := q }) with hnext | ⟨hstray, hfault⟩
        · exact .inl hnext
        · exact .inr ⟨p, q, hstray, hfault⟩

/-- A presentation of bytes that decode answers a next state: what decodes is in the domain. -/
theorem step_of_decoded {s : State} {bytes rest : List Byte} {q : List Stimulus} {i : Instr}
    (hpending : s.pending = .wire bytes :: q) (hdecode : decode (.wire bytes) = .ok (i, rest)) :
    ∃ t, step s = .next t := by
  obtain ⟨hwire, hwf, -, -⟩ := decodedBytesAreEncodings bytes rest i hdecode
  rw [stepRunsPresentedCommand s bytes rest q i hpending hdecode]
  exact (commandsRefusedExactlyOutsideDomain i _ hwire).2 hwf

/-- Any step: a next state, a refusal of bytes that do not decode with the decoder's reason, or the fault of a stray
layout. -/
theorem step_total (s : State) :
    (∃ t, step s = .next t) ∨
    (∃ bytes q e, s.pending = .wire bytes :: q ∧ decode (.wire bytes) = .error e ∧
      step s = .refused (.invalidEncoding e)) ∨
    ∃ p q, strayLayout (accept p { s with pending := q }) = true ∧ step s = .fault .absentAddress := by
  cases hact : nextIsHostAct s with
  | true =>
    rcases step_of_nextIsHostAct hact with hnext | hfault
    · exact .inl hnext
    · exact .inr (.inr hfault)
  | false =>
    obtain ⟨bytes, q, hp⟩ : ∃ bytes q, s.pending = .wire bytes :: q := by
      unfold nextIsHostAct at hact
      split at hact
      · exact ⟨_, _, ‹_›⟩
      all_goals cases hact
    cases hdecode : decode (.wire bytes) with
    | error e => exact .inr (.inl ⟨bytes, q, e, hp, hdecode, by simp [step, hp, act, present, hdecode]⟩)
    | ok r => exact .inl (step_of_decoded hp hdecode)

/-- Settles O56, by the three outcomes of a step. -/
theorem stopsOnlyOnInvalidBytes : Obligations.StopsOnlyOnInvalidBytes := by
  refine ⟨?hostAct, ?refused, ?fault, fun s bytes rest q i => step_of_decoded⟩
  case hostAct =>
    intro s h hact
    rcases step_of_nextIsHostAct hact with hnext | ⟨p, q, hstray, -⟩
    · exact hnext
    · rw [h.strayLayout] at hstray
      cases hstray
  case refused =>
    intro s r hstep
    rcases step_total s with ⟨t, hnext⟩ | ⟨bytes, q, e, hp, hdecode, hrefused⟩ | ⟨-, -, -, hfault⟩
    · rw [hnext] at hstep
      cases hstep
    · rw [hrefused] at hstep
      cases hstep
      exact ⟨bytes, q, e, hp, hdecode, rfl⟩
    · rw [hfault] at hstep
      cases hstep
  case fault =>
    intro s r h hstep
    rcases step_total s with ⟨t, hnext⟩ | ⟨-, -, e, -, -, hrefused⟩ | ⟨p, q, hstray, -⟩
    · rw [hnext] at hstep
      cases hstep
    · rw [hrefused] at hstep
      cases hstep
    · rw [h.strayLayout] at hstray
      cases hstray

end Sys2Proof.Machine
end

section
/-! The grouping phase of a pass (R113 to R117): one channel more makes of a bank's first values its next ones. -/

namespace Sys2Proof.Machine

/-! One channel more. -/

/-- The pass as it stands after its first `n` channels. -/
def PassSpec.upto (p : PassSpec) (n : Nat) : PassSpec := { p with len := n }

/-- The next channel is held too. -/
theorem upto_succ_holds (p : PassSpec) {n a : Nat} :
    (p.upto (n + 1)).holds a ↔ (p.upto n).holds a ∨ a = p.g0 + n := by
  simp only [PassSpec.holds, PassSpec.upto]
  omega

theorem not_upto_holds_next (p : PassSpec) (n : Nat) : ¬ (p.upto n).holds (p.g0 + n) := by
  simp only [PassSpec.holds, PassSpec.upto]
  omega

/-- The bank of the next channel gets its value. -/
theorem bankValues_upto_same (f : Nat → Byte) (p : PassSpec) (n : Nat) :
    bankValues f (p.upto (n + 1)) (n / 16) = bankValues f (p.upto n) (n / 16) ++ [f (p.g0 + n)] := by
  have hnext : min 16 (n + 1 - 16 * (n / 16)) = n % 16 + 1 := by omega
  have hnow : min 16 (n - 16 * (n / 16)) = n % 16 := by omega
  have hplace : p.g0 + 16 * (n / 16) + n % 16 = p.g0 + n := by omega
  simp only [bankValues, PassSpec.upto, hnext, hnow, List.range_succ, List.map_append, List.map_singleton, hplace]

/-- The other banks stay as they are. -/
theorem bankValues_upto_other (f : Nat → Byte) (p : PassSpec) {n b : Nat} (hb : n / 16 ≠ b) :
    bankValues f (p.upto (n + 1)) b = bankValues f (p.upto n) b := by
  have hlen : min 16 (n + 1 - 16 * b) = min 16 (n - 16 * b) := by omega
  simp only [bankValues, PassSpec.upto, hlen]

/-- Two lists of one length, each with one more entry, differ where the lists or the entries differ. -/
theorem concat_bne {vs os : List Byte} (v o : Byte) :
    (vs ++ [v] != os ++ [o]) = (vs != os || v != o) := by
  rw [Bool.eq_iff_iff]
  simp only [bne_iff_ne, ne_eq, Bool.or_eq_true, List.append_singleton_inj, not_and_or]

/-- The iteration of R116's loop for a channel gives its bank as its values determine it. -/
theorem channel_bankOf (src old : Nat → Byte) (force : Bool) (p : PassSpec) (n : Nat) :
    Bank.channel (src (p.g0 + n)) (old (p.g0 + n)) (n % 16) (bankOf src old force (p.upto n) (n / 16)) =
      bankOf src old force (p.upto (n + 1)) (n / 16) := by
  have hlen : (bankValues src (p.upto n) (n / 16)).length = n % 16 := by
    rw [bankValues_length]
    simp only [PassSpec.upto]
    omega
  have hgroups : groupInsert (src (p.g0 + n)) (n % 16) (groupsOf (bankValues src (p.upto n) (n / 16))) =
      groupsOf (bankValues src (p.upto n) (n / 16) ++ [src (p.g0 + n)]) := by
    rw [← hlen]
    exact groupInsert_groupsOf _ (by omega)
  simp only [Bank.channel, bankOf, bankValues_upto_same, hgroups, concat_bne, List.any_append, List.any_cons,
    List.any_nil, Bool.or_false, Bool.or_assoc]

theorem bankOf_upto_other (src old : Nat → Byte) (force : Bool) (p : PassSpec) {n b : Nat} (hb : n / 16 ≠ b) :
    bankOf src old force (p.upto (n + 1)) b = bankOf src old force (p.upto n) b := by
  simp only [bankOf, bankValues_upto_other _ p hb]

/-! The loop. -/

/-- The grouping after the first `n` channels of a pass (R116). -/
def groupingUpto (src : Nat → Byte) (p : PassSpec) (force : Bool) (last : Memory) (n : Nat) : Grouping :=
  (List.range n).foldl (groupChannel src p.g0)
    { banks := List.replicate (ceil16 p.len) (Bank.start force), last := last }

theorem groupingUpto_succ (src : Nat → Byte) (p : PassSpec) (force : Bool) (last : Memory) (n : Nat) :
    groupingUpto src p force last (n + 1) = groupChannel src p.g0 (groupingUpto src p force last n) n := by
  rw [groupingUpto, List.range_succ, List.foldl_append]
  rfl

/-- A pass that has read no channel: every bank is at its start. -/
theorem bankOf_upto_zero (src old : Nat → Byte) (force : Bool) (p : PassSpec) (b : Nat) :
    bankOf src old force (p.upto 0) b = Bank.start force := by
  have hnone : ∀ f, bankValues f (p.upto 0) b = [] := fun f => by simp [bankValues, PassSpec.upto]
  simp [bankOf, hnone, groupsOf, Bank.start]

/-- After `n` channels the history holds their values, and the banks are those of the first `n` channels (R114 to
R117). -/
theorem groupingUpto_spec (src : Nat → Byte) (p : PassSpec) (force : Bool) {last : Memory} (hwf : last.wf) (n : Nat) :
    (groupingUpto src p force last n).banks = (List.range p.nb).map (bankOf src last.read force (p.upto n)) ∧
    (groupingUpto src p force last n).last.wf ∧
    ∀ a, (groupingUpto src p force last n).last.read a = if (p.upto n).holds a then src a else last.read a := by
  induction n with
  | zero =>
    refine ⟨?_, hwf, fun a => ?_⟩
    · have hstart : bankOf src last.read force (p.upto 0) = fun _ => Bank.start force :=
        funext fun b => bankOf_upto_zero src last.read force p b
      rw [hstart, List.map_const', List.length_range]
      rfl
    · have hnone : ¬ (p.upto 0).holds a := by
        simp only [PassSpec.holds, PassSpec.upto]
        omega
      rw [if_neg hnone]
      rfl
  | succ n ih =>
    obtain ⟨hbanks, hlast, hread⟩ := ih
    have hold : (groupingUpto src p force last n).last.read (p.g0 + n) = last.read (p.g0 + n) := by
      rw [hread, if_neg (not_upto_holds_next p n)]
    rw [groupingUpto_succ, groupChannel]
    refine ⟨?_, Memory.wf_write _ _ hlast, fun a => ?_⟩
    · rw [hbanks, hold]
      apply List.ext_getElem?
      intro b
      by_cases hb : b < p.nb
      · by_cases hbank : n / 16 = b
        · subst hbank
          simp only [List.getElem?_modify, List.getElem?_map, List.getElem?_range hb, Option.map_some, reduceIte,
            Option.map_eq_map, channel_bankOf]
        · simp only [List.getElem?_modify, List.getElem?_map, List.getElem?_range hb, Option.map_some, hbank, reduceIte,
            Option.map_eq_map, bankOf_upto_other src last.read force p hbank]
      · rw [List.getElem?_eq_none (by simpa using hb), List.getElem?_eq_none (by simpa using hb)]
    · rw [Memory.read_write _ _ _ hlast, hread]
      by_cases ha : a = p.g0 + n
      · rw [if_pos ha, if_pos ((upto_succ_holds p).2 (.inr ha)), ha]
      · simp only [ha, reduceIte, upto_succ_holds, or_false]

/-- Settles O31: the loop is over after all channels of the pass, and the pass of all of them is the pass. -/
theorem groupingLoopMatchesValues : Obligations.GroupingLoopMatchesValues := by
  intro src p force last hwf
  obtain ⟨hbanks, hlast, hread⟩ := groupingUpto_spec src p force hwf p.len
  exact ⟨hbanks, hlast, hread⟩

end Sys2Proof.Machine
end

section
/-! The groups of a bank (R18, R113) and the commands made of them (R119 to R123), as the records they decode to. -/

namespace Sys2Proof.Machine

/-! The groups. -/

/-- A bank has no more distinct values than values. -/
theorem distinct_length_le (vals : List Byte) : (distinct vals).length ≤ vals.length :=
  ((distinct_nodup vals).subperm fun _ hv => mem_distinct.1 hv).length_le

/-- Masks of two values share no channel (R18). -/
theorem maskOf_disjoint {v w : Byte} (hne : v ≠ w) {vals : List Byte} (hlen : vals.length ≤ 16) :
    maskOf v vals &&& maskOf w vals = 0 := by
  apply BitVec.eq_of_getLsbD_eq
  intro k _
  rw [BitVec.getLsbD_and, maskOf_getLsbD v hlen, maskOf_getLsbD w hlen, ← Bool.decide_and, BitVec.ofNat_eq_ofNat,
    BitVec.getLsbD_zero, decide_eq_false]
  rintro ⟨hv, hw⟩
  rw [hv] at hw
  exact hne (Option.some.inj hw)

/-- Settles O32: the groups are those of the bank's values, one for each distinct value. -/
theorem groupsPartitionTheBank : Obligations.GroupsPartitionTheBank := by
  intro src p force last b bank hwf hbank
  obtain ⟨hbanks, -, -⟩ := groupingLoopMatchesValues src p force last hwf
  rw [hbanks, banksOf, List.getElem?_map, Option.map_eq_some_iff] at hbank
  obtain ⟨b', hb', rfl⟩ := hbank
  obtain rfl : b' = b := by
    obtain ⟨_, hget⟩ := List.getElem?_eq_some_iff.1 hb'
    rw [List.getElem_range] at hget
    exact hget.symm
  have hlen := bankValues_le src p b'
  rw [bankOf_groups, groupsOf]
  refine ⟨?few, ?disjoint, ?nonzero, fun k => ?cover⟩
  case few =>
    rw [List.length_map]
    exact (distinct_length_le _).trans hlen
  case disjoint =>
    exact List.pairwise_map.2 ((distinct_nodup _).imp fun hne => ⟨hne, maskOf_disjoint hne hlen⟩)
  case nonzero =>
    intro g hg
    obtain ⟨v, hv, rfl⟩ := List.mem_map.1 hg
    exact maskOf_ne_zero (mem_distinct.1 hv) hlen
  case cover =>
    rw [← bankValues_length src p b']
    constructor
    · rintro ⟨g, hg, hbit⟩
      obtain ⟨v, -, rfl⟩ := List.mem_map.1 hg
      rw [maskOf_getLsbD v hlen, decide_eq_true_iff] at hbit
      exact (List.getElem?_eq_some_iff.1 hbit).1
    · intro hk
      refine ⟨_, List.mem_map.2 ⟨_, mem_distinct.2 (List.getElem_mem hk), rfl⟩, ?_⟩
      rw [maskOf_getLsbD _ hlen, List.getElem?_eq_getElem hk]
      exact decide_eq_true rfl

/-! Records and their bytes. -/

/-- The generator's bytes for a record (R158, R159). -/
def recordBytes : Record → List Byte
  | .on u b m => genOn u b m
  | .set u b v m => genSet u b v m
  | .off u b => genOff u b
  | .fin => terminator

/-- A record whose operands are in the generator's domain (R156, R157). -/
def RecordInDomain : Record → Prop
  | .on u _ m => unitOk u = true ∧ m ≠ 0
  | .set u _ _ m => unitOk u = true ∧ m ≠ 0
  | .off u _ => unitOk u = true
  | .fin => False

/-- A record in the domain is that of a command with the generator's bytes (R75). -/
theorem exists_command_of_inDomain {r : Record} (h : RecordInDomain r) :
    ∃ i : Instr, i.IsCommand ∧ encodeBytes i = recordBytes r ∧ i.record = some r := by
  cases r with
  | on u b m =>
    obtain ⟨hu, hm⟩ := h
    exact ⟨onForm u b m, isCommand_of_record (wf_onForm hu hm) record_onForm nofun, encodeBytes_onForm hm,
      record_onForm⟩
  | set u b v m =>
    obtain ⟨hu, hm⟩ := h
    exact ⟨setForm u b v m, isCommand_of_record (wf_setForm hu hm) record_setForm nofun, encodeBytes_setForm hm,
      record_setForm⟩
  | off u b =>
    exact ⟨offForm u b, isCommand_of_record (wf_offForm h) record_offForm nofun, encodeBytes_offForm, record_offForm⟩
  | fin => exact h.elim

theorem exists_commands_of_inDomain {rs : List Record} (h : ∀ r ∈ rs, RecordInDomain r) :
    ∃ cmds : List Instr, (∀ i ∈ cmds, i.IsCommand) ∧ cmds.flatMap encodeBytes = rs.flatMap recordBytes ∧
      cmds.flatMap (fun i => i.record.toList) = rs := by
  induction rs with
  | nil => exact ⟨[], nofun, rfl, rfl⟩
  | cons r rs ih =>
    obtain ⟨hr, hrest⟩ := List.forall_mem_cons.1 h
    obtain ⟨i, hcmd, hbytes, hrec⟩ := exists_command_of_inDomain hr
    obtain ⟨cmds, hcmds, hflat, hrecs⟩ := ih hrest
    refine ⟨i :: cmds, List.forall_mem_cons.2 ⟨hcmd, hcmds⟩, ?_, ?_⟩
    · rw [List.flatMap_cons, List.flatMap_cons, hbytes, hflat]
    · rw [List.flatMap_cons, hrec, hrecs]
      rfl

/-- The generator's bytes for a list of records, closed by the terminator, decode to them (R74). -/
theorem decodeWrite_records {rs : List Record} (h : ∀ r ∈ rs, RecordInDomain r) :
    decodeWrite (rs.flatMap recordBytes ++ terminator) = .ok (rs ++ [.fin]) := by
  obtain ⟨cmds, hcmds, hflat, hrecs⟩ := exists_commands_of_inDomain h
  rw [← hflat, decodeWrite_commands hcmds, hrecs]

/-! The commands of a bank. -/

/-- The records of a bank's commands from its values, in the precedence of R119: the all-off shortcut, else in colour
mode the zero group, then the full-on group, then the other values in the order of their first channel. -/
def bankRecords (par : Params) (u : Byte) (b : BankIx) (vals : List Byte) : List Record :=
  if distinct vals = [0x00] then [.off u b]
  else
    (if vals.any isMid then
      (if 0x00 ∈ vals then [.set u b (wireValue par 0x00) (maskOf 0x00 vals)] else []) else []) ++
    (if 0xFF ∈ vals then [.on u b (maskOf 0xFF vals)] else []) ++
    ((distinct vals).filter isMid).map (fun v => .set u b (wireValue par v) (maskOf v vals))

/-- The commands of a bank are the generator's bytes for its records. -/
theorem bankCommands_bankOf (par : Params) (u : Byte) (b : BankIx) (src old : Nat → Byte) (force : Bool)
    (p : PassSpec) (k : Nat) :
    bankCommands par u b (bankOf src old force p k) = (bankRecords par u b (bankValues src p k)).map recordBytes := by
  have hgroup : ∀ v, (groupsOf (bankValues src p k)).filter (·.val == v) =
      if v ∈ bankValues src p k then [{ val := v, mask := maskOf v (bankValues src p k) }] else [] := by
    intro v
    rw [filter_groupsOf (· == v), filter_distinct_eq]
    split <;> rfl
  rw [bankCommands, bankRecords, bankOf_groups, groupsOf_vals, bankOf_color]
  by_cases hzero : distinct (bankValues src p k) = [0x00]
  · rw [if_pos hzero, if_pos hzero]
    rfl
  · rw [if_neg hzero, if_neg hzero, hgroup, hgroup, filter_groupsOf isMid]
    simp only [List.map_append, List.map_map, apply_ite (List.map _), List.map_cons, List.map_nil]
    rfl

theorem isMid_iff {v : Byte} : isMid v = true ↔ v ≠ 0x00 ∧ v ≠ 0xFF := by simp [isMid]

theorem distinct_ne_zero {v : Byte} {vals : List Byte} (hmem : v ∈ vals) (hv : v ≠ 0x00) : distinct vals ≠ [0x00] := by
  intro h
  have := mem_distinct.2 hmem
  rw [h, List.mem_singleton] at this
  exact hv this

/-- A bank of 0 and 0xFF is not in colour mode (R114, R132). -/
theorem isMid_eq_false_of_onOff {vals : List Byte} (h : ∀ v ∈ vals, v = 0x00 ∨ v = 0xFF) :
    ∀ v ∈ vals, isMid v = false := by
  intro v hv
  rcases h v hv with rfl | rfl <;> rfl

/-- Settles O39: without colour the zero group gets no command, and there is no other value. -/
theorem onOffBankIsOneOn : Obligations.OnOffBankIsOneOn := by
  intro par src old force p b honOff hfull
  have hmid := isMid_eq_false_of_onOff honOff
  refine ⟨?_, fun k => ?_⟩
  · have hcolour : (bankValues src p b).any isMid = false := by simpa using hmid
    have hrest : (distinct (bankValues src p b)).filter isMid = [] :=
      List.filter_eq_nil_iff.2 fun v hv => by simp [hmid v (mem_distinct.1 hv)]
    rw [bankCommands_bankOf, bankRecords, if_neg (distinct_ne_zero hfull (by decide)), hcolour, hrest, if_pos hfull]
    rfl
  · rw [maskOf_getLsbD _ (bankValues_le src p b), decide_eq_true_iff]

/-- Settles O40: a value strictly between makes the bank one of colour. -/
theorem colourBankCommandOrder : Obligations.ColourBankCommandOrder := by
  intro par src old force p b hcolour
  obtain ⟨v, hv, hne⟩ := hcolour
  have hany : (bankValues src p b).any isMid = true := List.any_eq_true.2 ⟨v, hv, isMid_iff.2 hne⟩
  rw [bankCommands_bankOf, bankRecords, if_neg (distinct_ne_zero hv hne.1), if_pos hany]
  simp only [List.map_append, List.map_map, apply_ite (List.map _), List.map_cons, List.map_nil]
  rfl

/-- What holds of the records of a bank's groups and of `OFF` holds of all its records. -/
theorem forall_mem_bankRecords {P : Record → Prop} {par : Params} {u : Byte} {b : BankIx} {vals : List Byte}
    (hoff : P (.off u b)) (hon : ∀ v ∈ vals, P (.on u b (maskOf v vals)))
    (hset : ∀ v ∈ vals, P (.set u b (wireValue par v) (maskOf v vals))) : ∀ r ∈ bankRecords par u b vals, P r := by
  intro r hr
  unfold bankRecords at hr
  split at hr
  · rw [List.mem_singleton] at hr
    rw [hr]
    exact hoff
  rcases List.mem_append.1 hr with hr | hr
  · rcases List.mem_append.1 hr with hr | hr
    · simp only [List.mem_ite_nil_right, List.mem_singleton] at hr
      obtain ⟨-, hv, rfl⟩ := hr
      exact hset _ hv
    · simp only [List.mem_ite_nil_right, List.mem_singleton] at hr
      obtain ⟨hv, rfl⟩ := hr
      exact hon _ hv
  · obtain ⟨v, hv, rfl⟩ := List.mem_map.1 hr
    exact hset v (mem_distinct.1 (List.mem_filter.1 hv).1)

/-- The records of a bank are in the domain: a value the bank holds has a mask that is not zero (R156). -/
theorem bankRecords_inDomain {par : Params} {u : Byte} {b : BankIx} {vals : List Byte} (hu : unitOk u = true)
    (hlen : vals.length ≤ 16) : ∀ r ∈ bankRecords par u b vals, RecordInDomain r :=
  forall_mem_bankRecords hu (fun _ hv => ⟨hu, maskOf_ne_zero hv hlen⟩) fun _ hv => ⟨hu, maskOf_ne_zero hv hlen⟩

theorem bankRecords_unit (par : Params) (u : Byte) (b : BankIx) (vals : List Byte) :
    ∀ r ∈ bankRecords par u b vals, recordUnit r = some u :=
  forall_mem_bankRecords rfl (fun _ _ => rfl) fun _ _ => rfl

theorem bankRecords_bank (par : Params) (u : Byte) (b : BankIx) (vals : List Byte) :
    ∀ r ∈ bankRecords par u b vals, recordBank r = some b.toNat :=
  forall_mem_bankRecords rfl (fun _ _ => rfl) fun _ _ => rfl

/-- A bank with a channel has a command: its values are 0 throughout, or one of them is not 0 (R119). -/
theorem bankRecords_ne_nil (par : Params) (u : Byte) (b : BankIx) {vals : List Byte} (hne : vals ≠ []) :
    bankRecords par u b vals ≠ [] := by
  unfold bankRecords
  split
  · simp
  rename_i hzero
  obtain ⟨v, hv, hv0⟩ : ∃ v ∈ vals, v ≠ 0x00 := by
    by_contra hall
    push Not at hall
    exact hzero (distinct_of_uniform hne hall)
  by_cases hfull : v = 0xFF
  · subst hfull
    rw [if_pos hv]
    simp
  · have hmid : v ∈ (distinct vals).filter isMid :=
      List.mem_filter.2 ⟨mem_distinct.2 hv, isMid_iff.2 ⟨hv0, hfull⟩⟩
    intro hnil
    rw [List.append_eq_nil_iff, List.map_eq_nil_iff] at hnil
    rw [hnil.2] at hmid
    cases hmid

/-! How much a bank emits. -/

/-- A value is 0, 0xFF or strictly between. -/
theorem sum_by_kind (f : Byte → Nat) (vs : List Byte) :
    ((vs.filter (· == 0x00)).map f).sum + ((vs.filter (· == 0xFF)).map f).sum + ((vs.filter isMid).map f).sum =
      (vs.map f).sum := by
  induction vs with
  | nil => rfl
  | cons v vs ih =>
    by_cases h0 : v = 0x00
    · subst h0
      simp [isMid, ← ih]
      omega
    · by_cases hff : v = 0xFF
      · subst hff
        simp [isMid, ← ih]
        omega
      · rw [List.filter_cons_of_neg (by simpa using h0), List.filter_cons_of_neg (by simpa using hff),
          List.filter_cons_of_pos (isMid_iff.2 ⟨h0, hff⟩)]
        simp only [List.map_cons, List.sum_cons, ← ih]
        omega

/-- A weight of records that is at most that of their value sums to at most that of the distinct values. -/
theorem sum_bankRecords_le {w : Record → Nat} {f : Byte → Nat} {par : Params} {u : Byte} {b : BankIx} {vals : List Byte}
    (hoff : 0x00 ∈ vals → w (.off u b) ≤ f 0x00) (hon : ∀ v ∈ vals, w (.on u b (maskOf v vals)) ≤ f v)
    (hset : ∀ v ∈ vals, w (.set u b (wireValue par v) (maskOf v vals)) ≤ f v) :
    ((bankRecords par u b vals).map w).sum ≤ ((distinct vals).map f).sum := by
  unfold bankRecords
  split
  · rename_i hzero
    have hmem : 0x00 ∈ vals := mem_distinct.1 (by rw [hzero]; exact List.mem_singleton_self _)
    rw [hzero]
    simpa using hoff hmem
  · rw [← sum_by_kind f, filter_distinct_eq, filter_distinct_eq, List.map_append, List.map_append, List.sum_append,
      List.sum_append]
    refine Nat.add_le_add (Nat.add_le_add ?zero ?full) ?mid
    case zero =>
      split
      · split
        · simpa using hset _ ‹_›
        · simp
      · simp
    case full =>
      split
      · simpa using hon _ ‹_›
      · simp
    case mid =>
      rw [List.map_map]
      exact List.sum_le_sum fun v hv => hset v (mem_distinct.1 (List.mem_filter.1 hv).1)

/-- Every channel of a bank is counted under one distinct value. -/
theorem sum_count_distinct (vals : List Byte) : ((distinct vals).map (fun v => vals.count v)).sum = vals.length := by
  have hperm : (distinct vals).Perm vals.dedup :=
    (List.perm_ext_iff_of_nodup (distinct_nodup vals) vals.nodup_dedup).2 fun v => by
      rw [mem_distinct, List.mem_dedup]
  rw [(hperm.map _).sum_nat, List.sum_map_count_dedup_eq_length]

/-- A mask byte that is not zero has a channel that holds the value, and the two bytes have different channels. -/
theorem maskBytes_length_le_count {v : Byte} {vals : List Byte} (hlen : vals.length ≤ 16) :
    (maskBytes (maskOf v vals)).length ≤ vals.count v := by
  have hlow : maskLsb (maskOf v vals) ≠ 0 → 0 < (vals.take 8).count v := by
    intro hne
    by_contra hnone
    rw [List.count_pos_iff] at hnone
    refine hne (BitVec.eq_of_getLsbD_eq fun k hk => ?_)
    rw [maskLsb, BitVec.getLsbD_extractLsb', Nat.zero_add, maskOf_getLsbD v hlen, BitVec.ofNat_eq_ofNat,
      BitVec.getLsbD_zero, decide_eq_true hk, Bool.true_and, decide_eq_false_iff_not]
    intro hget
    exact hnone (List.mem_of_getElem? (i := k) (by rw [List.getElem?_take_of_lt hk, hget]))
  have hhigh : maskMsb (maskOf v vals) ≠ 0 → 0 < (vals.drop 8).count v := by
    intro hne
    by_contra hnone
    rw [List.count_pos_iff] at hnone
    refine hne (BitVec.eq_of_getLsbD_eq fun k hk => ?_)
    rw [maskMsb, BitVec.getLsbD_extractLsb', maskOf_getLsbD v hlen, BitVec.ofNat_eq_ofNat,
      BitVec.getLsbD_zero, decide_eq_true hk, Bool.true_and, decide_eq_false_iff_not]
    intro hget
    exact hnone (List.mem_of_getElem? (i := k) (by rw [List.getElem?_drop, hget]))
  have hsplit : vals.count v = (vals.take 8).count v + (vals.drop 8).count v := by
    rw [← List.count_append, List.take_append_drop]
  rw [hsplit, maskBytes, List.length_append]
  refine Nat.add_le_add ?_ ?_
  · split
    · exact hlow ‹_›
    · exact Nat.zero_le _
  · split
    · exact hhigh ‹_›
    · exact Nat.zero_le _

/-- The bytes of `Gen` that are no mask byte: 4 at most in bank 0, 5 at most in the others (R63, R65, R158). -/
theorem gen_length_le (u : Byte) (b : BankIx) (vb : Bool) (v : Byte) (m : Mask) :
    (gen u b vb v m).length ≤ (if b = 0 then 4 else 5) + (maskBytes m).length := by
  unfold gen
  cases vb <;> split <;> simp <;> omega

/-- A channel's share of a bank's bytes: 5 in bank 0, 6 in the others. -/
def bytesPerChannel (b : BankIx) : Nat := if b = 0 then 5 else 6

/-- A group's command has at most its channels' share of the bytes. -/
theorem group_bytes_le {v : Byte} {vals : List Byte} (hv : v ∈ vals) (hlen : vals.length ≤ 16) (u : Byte) (b : BankIx)
    (vb : Bool) (val : Byte) : (gen u b vb val (maskOf v vals)).length ≤ bytesPerChannel b * vals.count v := by
  have hgen := gen_length_le u b vb val (maskOf v vals)
  have hmask := maskBytes_length_le_count (v := v) hlen
  have hpos := List.count_pos_iff.2 hv
  unfold bytesPerChannel
  split at hgen
  · rw [if_pos ‹_›]
    omega
  · rw [if_neg ‹_›]
    omega

/-- `OFF` takes no more than one channel's share. -/
theorem off_bytes_le (u : Byte) (b : BankIx) : (genOff u b).length ≤ bytesPerChannel b := by
  unfold genOff bytesPerChannel
  split <;> simp

/-- A bank's commands are at most as many as its channels. -/
theorem bankRecords_length_le (par : Params) (u : Byte) (b : BankIx) (vals : List Byte) :
    (bankRecords par u b vals).length ≤ vals.length := by
  have hsum := sum_bankRecords_le (w := fun _ => 1) (f := fun _ => 1) (par := par) (u := u) (b := b) (vals := vals)
    (fun _ => le_rfl) (fun _ _ => le_rfl) fun _ _ => le_rfl
  simp only [List.map_const', List.sum_replicate, smul_eq_mul, mul_one] at hsum
  exact hsum.trans (distinct_length_le vals)

/-- A bank's bytes are at most its channels' share. -/
theorem bankRecords_bytes_le (par : Params) (u : Byte) (b : BankIx) {vals : List Byte} (hlen : vals.length ≤ 16) :
    ((bankRecords par u b vals).flatMap recordBytes).length ≤ bytesPerChannel b * vals.length := by
  have hsum := sum_bankRecords_le (w := fun r => (recordBytes r).length)
    (f := fun v => bytesPerChannel b * vals.count v) (par := par) (u := u) (b := b) (vals := vals)
    (fun hzero => (off_bytes_le u b).trans (Nat.le_mul_of_pos_right _ (List.count_pos_iff.2 hzero)))
    (fun v hv => group_bytes_le hv hlen u b false 0) fun v hv => group_bytes_le hv hlen u b true (wireValue par v)
  rw [List.sum_map_mul_left, sum_count_distinct] at hsum
  rwa [List.length_flatMap]

end Sys2Proof.Machine
end

section
/-! What a pass of `FRAME` writes (R118, R124, R129), what a `FRAME` that runs does (R110 to R125), and the stale
history behind an `ALLOFF` (R170 to R177, R209). -/

namespace Sys2Proof.Machine

/-! The commands of a pass. -/

/-- Bank `b` of a pass has changed, or `FORCE` is set (R20, R115). -/
def bankChanged (src old : Nat → Byte) (force : Bool) (p : PassSpec) (b : Nat) : Bool :=
  force || bankValues src p b != bankValues old p b

/-- The records of a pass's bank: those of its values, if it has changed (R118). -/
def changedBankRecords (par : Params) (src old : Nat → Byte) (force : Bool) (p : PassSpec) (b : Nat) : List Record :=
  if bankChanged src old force p b then bankRecords par p.unit (BitVec.ofNat 6 b) (bankValues src p b) else []

/-- The records of a pass's commands, from the highest bank down to bank 0 (R118). -/
def passRecords (par : Params) (src old : Nat → Byte) (force : Bool) (p : PassSpec) : List Record :=
  (List.range p.nb).reverse.flatMap (changedBankRecords par src old force p)

/-- The banks of a pass with their indices. -/
theorem zipIdx_banksOf (src old : Nat → Byte) (force : Bool) (p : PassSpec) :
    (banksOf src old force p).zipIdx = (List.range p.nb).map (fun b => (bankOf src old force p b, b)) := by
  apply List.ext_getElem?
  intro b
  rw [banksOf, List.getElem?_zipIdx, List.getElem?_map, List.getElem?_map]
  by_cases hb : b < p.nb
  · simp [List.getElem?_range hb]
  · simp [hb]

/-- `EmitBanks` emits the generator's bytes for the records of the pass. -/
theorem passCommands_banksOf (par : Params) (src old : Nat → Byte) (force : Bool) (p : PassSpec) :
    passCommands par p.unit (banksOf src old force p) = (passRecords par src old force p).map recordBytes := by
  rw [passCommands, zipIdx_banksOf, ← List.map_reverse, List.flatMap_map, passRecords, List.map_flatMap]
  congr 1
  funext b
  rw [changedBankRecords, bankChanged, bankCommands_bankOf, apply_ite (List.map recordBytes)]
  rfl

/-- The bytes of a pass's write. -/
theorem passBytes_banksOf (par : Params) (src old : Nat → Byte) (force : Bool) (p : PassSpec) :
    passBytes par p.unit (banksOf src old force p) =
      (passRecords par src old force p).flatMap recordBytes ++ terminator := by
  rw [passBytes, passCommands_banksOf, List.flatMap_def]

/-- A pass's banks: which of them has changed (R20, R124). -/
theorem passChanged_banksOf {src old : Nat → Byte} {force : Bool} {p : PassSpec} :
    passChanged (banksOf src old force p) = true ↔ ∃ b, b < p.nb ∧ bankChanged src old force p b = true := by
  simp [passChanged, banksOf, bankChanged]

/-- A pass writes its records and the terminator, if a bank has changed (R124). -/
theorem passEvents_eq (par : Params) (src old : Nat → Byte) (force : Bool) (p : PassSpec) :
    passEvents par src old force p =
      if passChanged (banksOf src old force p) then
        [.txWrite ((passRecords par src old force p).flatMap recordBytes ++ terminator)] else [] := by
  rw [passEvents, ← passBytes_banksOf, passBytes]

theorem mem_passRecords {par : Params} {src old : Nat → Byte} {force : Bool} {p : PassSpec} {r : Record} :
    r ∈ passRecords par src old force p ↔
      ∃ b, b < p.nb ∧ bankChanged src old force p b = true ∧
        r ∈ bankRecords par p.unit (BitVec.ofNat 6 b) (bankValues src p b) := by
  simp [passRecords, changedBankRecords]

section PassRecords

variable {par : Params} {src old : Nat → Byte} {force : Bool} {p : PassSpec}

theorem passRecords_inDomain (hunit : unitOk p.unit = true) :
    ∀ r ∈ passRecords par src old force p, RecordInDomain r := by
  intro r hr
  obtain ⟨b, -, -, hr⟩ := mem_passRecords.1 hr
  exact bankRecords_inDomain hunit (bankValues_le src p b) r hr

theorem passRecords_unit : ∀ r ∈ passRecords par src old force p, recordUnit r = some p.unit := by
  intro r hr
  obtain ⟨b, -, -, hr⟩ := mem_passRecords.1 hr
  exact bankRecords_unit par p.unit _ _ r hr

/-- A bank index of a pass of at most 64 banks is the one its bank byte carries (R64, R98). -/
theorem toNat_bankIx {b n : Nat} (hb : b < n) (hn : n ≤ 64) : (BitVec.ofNat 6 b).toNat = b := by
  rw [BitVec.toNat_ofNat]
  omega

/-- The banks the records of a bank name. -/
theorem mem_changedBankRecords_bank {b n : Nat}
    (hn : n ∈ (changedBankRecords par src old force p b).filterMap recordBank) :
    n = (BitVec.ofNat 6 b).toNat := by
  obtain ⟨r, hr, hbank⟩ := List.mem_filterMap.1 hn
  unfold changedBankRecords at hr
  split at hr
  · rw [bankRecords_bank par p.unit _ _ r hr] at hbank
    exact (Option.some.inj hbank).symm
  · cases hr

/-- The banks named go down (R118). -/
theorem passRecords_descending (hnb : p.nb ≤ 64) :
    ((passRecords par src old force p).filterMap recordBank).Pairwise (· ≥ ·) := by
  rw [passRecords, List.filterMap_flatMap, List.pairwise_flatMap]
  refine ⟨fun b _ => ?same, ?between⟩
  case same =>
    refine List.pairwise_of_forall_mem_list fun m hm n hn => ?_
    rw [mem_changedBankRecords_bank hm, mem_changedBankRecords_bank hn]
  case between =>
    refine (List.pairwise_reverse.2 List.pairwise_lt_range).imp_of_mem ?_
    intro a b ha hb hba m hm n hn
    rw [List.mem_reverse, List.mem_range] at ha hb
    rw [mem_changedBankRecords_bank hm, mem_changedBankRecords_bank hn, toNat_bankIx ha hnb, toNat_bankIx hb hnb]
    exact Nat.le_of_lt hba

/-- A bank of the pass that has changed has a command, and no other (R118, R131). -/
theorem mem_passRecords_bank (hnb : p.nb ≤ 64) {b : Nat} :
    b ∈ (passRecords par src old force p).filterMap recordBank ↔ b < p.nb ∧ bankChanged src old force p b = true := by
  rw [List.mem_filterMap]
  constructor
  · rintro ⟨r, hr, hbank⟩
    obtain ⟨b', hb', hchanged, hr⟩ := mem_passRecords.1 hr
    rw [bankRecords_bank par p.unit _ _ r hr, toNat_bankIx hb' hnb] at hbank
    obtain rfl := Option.some.inj hbank
    exact ⟨hb', hchanged⟩
  · rintro ⟨hb, hchanged⟩
    obtain ⟨r, hr⟩ := List.exists_mem_of_ne_nil _
      (bankRecords_ne_nil par p.unit (BitVec.ofNat 6 b) (bankValues_ne_nil_iff.2 hb : bankValues src p b ≠ []))
    refine ⟨r, mem_passRecords.2 ⟨b, hb, hchanged, hr⟩, ?_⟩
    rw [bankRecords_bank par p.unit _ _ r hr, toNat_bankIx hb hnb]

end PassRecords

/-- Settles O36: what a pass writes is its records' bytes, and they are in the domain. -/
theorem passWritesDecodeInDescendingOrder : Obligations.PassWritesDecodeInDescendingOrder := by
  intro par src old force p bytes hunit hnb hwrite
  rw [passEvents_eq, List.mem_ite_nil_right, List.mem_singleton] at hwrite
  obtain ⟨hchanged, hbytes⟩ := hwrite
  obtain rfl := Event.txWrite.inj hbytes
  refine ⟨passRecords par src old force p, decodeWrite_records (passRecords_inDomain hunit), ?nonempty,
    passRecords_unit, passRecords_descending hnb, fun b => ?_⟩
  case nonempty =>
    obtain ⟨b, hb⟩ := passChanged_banksOf.1 hchanged
    obtain ⟨r, hr, -⟩ := List.mem_filterMap.1 ((mem_passRecords_bank (par := par) hnb).2 hb)
    exact List.ne_nil_of_mem hr
  · rw [mem_passRecords_bank hnb]
    simp [bankChanged]

/-! How much a pass emits. -/

/-- A bank's bytes: at most those of 16 channels. -/
theorem bank_bytes_le (par : Params) (u : Byte) (b : BankIx) (src : Nat → Byte) (p : PassSpec) (k : Nat) :
    ((bankRecords par u b (bankValues src p k)).flatMap recordBytes).length ≤ if b = 0 then 80 else 96 := by
  have hlen := bankValues_le src p k
  have hbytes := bankRecords_bytes_le par u b hlen
  unfold bytesPerChannel at hbytes
  split at hbytes
  · rw [if_pos ‹_›]
    omega
  · rw [if_neg ‹_›]
    omega

/-- Banks of at most 96 bytes, bank 0 of at most 80, one after the other. -/
theorem flatMap_range_reverse_length_le {f : Nat → List Byte} (hzero : (f 0).length ≤ 80) (hf : ∀ b, (f b).length ≤ 96)
    (n : Nat) : ((List.range n).reverse.flatMap f).length ≤ 96 * n - 16 := by
  induction n with
  | zero => exact Nat.le_refl 0
  | succ n ih =>
    rw [List.range_succ, List.reverse_concat, List.flatMap_cons, List.length_append]
    have := hf n
    cases n with
    | zero => simpa using hzero
    | succ n => omega

/-- A pass of at most 64 banks, with its terminator (R129). -/
theorem passBytes_length_le (par : Params) (src old : Nat → Byte) (force : Bool) {p : PassSpec} (hnb : p.nb ≤ 64) :
    (passBytes par p.unit (banksOf src old force p)).length ≤ 6130 := by
  have hbank : ∀ b, ((changedBankRecords par src old force p b).flatMap recordBytes).length ≤
      if BitVec.ofNat 6 b = 0 then 80 else 96 := by
    intro b
    unfold changedBankRecords
    split
    · exact bank_bytes_le par p.unit _ src p b
    · exact Nat.zero_le _
  have hbanks := flatMap_range_reverse_length_le
    (f := fun b => (changedBankRecords par src old force p b).flatMap recordBytes) (hbank 0)
    (fun b => (hbank b).trans (by split <;> omega)) p.nb
  rw [passBytes_banksOf, passRecords, List.flatMap_assoc, List.length_append, terminator]
  simp only [List.length_cons, List.length_nil]
  omega

/-- Settles O37: a bank has no more commands than its 16 channels at most, and each channel has its share of the
bytes. -/
theorem passBytesStayBelowCapacity : Obligations.PassBytesStayBelowCapacity := by
  intro par src old force p
  refine ⟨fun b hb => ?_, passBytes_length_le par src old force⟩
  have hne : bankValues src p b ≠ [] := bankValues_ne_nil_iff.2 hb
  rw [bankCommands_bankOf, List.length_map, ← List.flatMap_def]
  exact ⟨List.length_pos_iff.2 (bankRecords_ne_nil _ _ _ hne),
    (bankRecords_length_le _ _ _ _).trans (bankValues_le src p b), bank_bytes_le _ _ _ _ _ _⟩

/-! A `FRAME` that runs. -/

/-- The grouping of a pass in a state, without the loop. -/
theorem groupingOf_banks {s : State} (hwf : s.last.wf) (p : PassSpec) :
    (groupingOf s p).banks = banksOf (srcRead s) s.last.read s.force p :=
  (groupingLoopMatchesValues (srcRead s) p s.force s.last hwf).1

/-- A pass of at most 64 banks goes on: its write is out, and the history holds its values (R116, R129). -/
theorem encodePass_of_nb_le {s : State} (hwf : s.last.wf) {p : PassSpec} (hnb : p.nb ≤ 64) :
    encodePass p s = .on { s with
      cmdbuf := [], last := (groupingOf s p).last
      trace := s.trace ++ passEvents s.par (srcRead s) s.last.read s.force p } := by
  have hbytes := passBytes_length_le s.par (srcRead s) s.last.read s.force hnb
  rw [encodePass_of_fits (by rw [groupingOf_banks hwf]; simp only [Config.cmdBufBytes]; omega), groupingOf_banks hwf]
  rfl

/-- Passes one behind the other, each of at most 64 banks: each is judged against the history before the first, because
none holds a channel of another (R42, R112). -/
theorem runEach_encodePass {ps : List PassSpec} (hnb : ∀ p ∈ ps, p.nb ≤ 64)
    (horder : ps.Pairwise (fun p q => p.g0 + p.len ≤ q.g0)) {s : State} (hwf : s.last.wf) :
    ∃ (buf : List Byte) (last : Memory), last.wf ∧
      (∀ a, last.read a = if ∃ p ∈ ps, p.holds a then srcRead s a else s.last.read a) ∧
      runEach encodePass ps s = .on { s with
        cmdbuf := buf, last := last
        trace := s.trace ++ ps.flatMap (passEvents s.par (srcRead s) s.last.read s.force) } := by
  induction ps generalizing s with
  | nil => exact ⟨s.cmdbuf, s.last, hwf, fun a => by simp, by simp⟩
  | cons p ps ih =>
    obtain ⟨hp, hps⟩ := List.forall_mem_cons.1 hnb
    obtain ⟨hbehind, hrest⟩ := List.pairwise_cons.1 horder
    obtain ⟨-, hgwf, hgread⟩ := groupingLoopMatchesValues (srcRead s) p s.force s.last hwf
    rw [runEach_cons, encodePass_of_nb_le hwf hp, Flow.andThen_on]
    obtain ⟨buf, last, hlast, hread, hrun⟩ := ih hps hrest (s := { s with
      cmdbuf := [], last := (groupingOf s p).last
      trace := s.trace ++ passEvents s.par (srcRead s) s.last.read s.force p }) hgwf
    refine ⟨buf, last, hlast, fun a => ?history, ?run⟩
    case history =>
      have hsame : srcRead { s with
          cmdbuf := [], last := (groupingOf s p).last
          trace := s.trace ++ passEvents s.par (srcRead s) s.last.read s.force p } = srcRead s :=
        srcRead_congr rfl rfl
      rw [hread, hsame]
      simp only [List.exists_mem_cons_iff]
      by_cases hlater : ∃ q ∈ ps, q.holds a
      · rw [if_pos hlater, if_pos (.inr hlater)]
      · simp only [hlater, or_false, reduceIte]
        exact hgread a
    case run =>
      have hjudged : ps.flatMap (passEvents s.par (srcRead s) (groupingOf s p).last.read s.force) =
          ps.flatMap (passEvents s.par (srcRead s) s.last.read s.force) := by
        refine List.flatMap_congr fun q hq => ?_
        have hother : ∀ a, q.holds a → (groupingOf s p).last.read a = s.last.read a := by
          intro a ha
          have := hbehind q hq
          have hnot : ¬ p.holds a := by
            simp only [PassSpec.holds] at ha ⊢
            omega
          exact (hgread a).trans (if_neg hnot)
        rw [passEvents, passEvents, banksOf_congr hother]
      rw [hrun, List.flatMap_cons, ← hjudged, List.append_assoc]
      rfl

/-- The state a `FRAME` that runs leaves, with the buffer and the history as given (R124, R125). -/
def afterFrame (s : State) (buf : List Byte) (last : Memory) : State :=
  { s with
    last := last, force := false, cmdbuf := buf, busy := false, freeCount := s.freeCount + 1
    trace := s.trace ++ (framePasses s).flatMap (passEvents s.par (frameSrc s) s.last.read s.force) ++ [.done .done] }

/-- A `FRAME` that runs, as an equation: the writes of its passes and the history they leave (R110 to R125). -/
theorem exec_frame_of_runs_eq {s : State} (h : FrameRuns s) (hwf : s.last.wf) :
    ∃ (buf : List Byte) (last : Memory), last.wf ∧
      (∀ a, last.read a = if ∃ p ∈ framePasses s, p.holds a then frameSrc s a else s.last.read a) ∧
      exec .frame s = .next (afterFrame s buf last) := by
  obtain ⟨buf, last, hlast, hread, hrun⟩ :=
    runEach_encodePass (ps := framePasses s) (s := startFrame s)
      (fun p hp => nb_le_of_mem_layout h.legal hp) (layout_pairwise _ _) hwf
  refine ⟨buf, last, hlast, hread, ?_⟩
  rw [framePasses] at hrun
  rw [exec_frame_of_runs h, frameBody, hrun]
  rfl

/-- Settles O33: each channel is held by one pass, which leaves its value in the history. -/
theorem frameTransmitsTheDelta : Obligations.FrameTransmitsTheDelta := by
  intro s h hwf
  obtain ⟨buf, last, -, hread, hexec⟩ := exec_frame_of_runs_eq h hwf
  refine ⟨_, hexec, rfl, rfl, fun p hp a ha => ?_, fun a hnone => ?_, rfl⟩
  · exact (hread a).trans (if_pos ⟨p, hp, ha⟩)
  · exact (hread a).trans (if_neg fun ⟨p, hp, ha⟩ => hnone p hp ha)

/-- A pass whose channels hold what the history holds writes nothing, with `FORCE` clear (R131). -/
theorem passEvents_of_unchanged (par : Params) {src old : Nat → Byte} {p : PassSpec}
    (h : ∀ a, p.holds a → src a = old a) : passEvents par src old false p = [] := by
  rw [passEvents_eq, if_neg]
  intro hchanged
  obtain ⟨b, -, hb⟩ := passChanged_banksOf.1 hchanged
  simp [bankChanged, bankValues_congr h] at hb

/-- Settles O34: nothing is written, and the history reads as before at every address. -/
theorem unchangedFrameWritesNothing : Obligations.UnchangedFrameWritesNothing := by
  intro s h hwf hforce hsame
  obtain ⟨buf, last, hlast, hread, hexec⟩ := exec_frame_of_runs_eq h hwf
  refine ⟨_, hexec, ?trace, ?history⟩
  case trace =>
    have hnone : (framePasses s).flatMap (passEvents s.par (frameSrc s) s.last.read s.force) = [] := by
      rw [hforce]
      exact List.flatMap_eq_nil_iff.2 fun p hp => passEvents_of_unchanged s.par (hsame p hp)
    rw [afterFrame, hnone, List.append_nil]
  case history =>
    refine Memory.ext_read hlast hwf fun a => ?_
    refine (hread a).trans ?_
    split
    · rename_i hheld
      obtain ⟨p, hp, ha⟩ := hheld
      exact hsame p hp a ha
    · rfl

/-- Settles O35: with `FORCE` set every bank of a pass has changed. -/
theorem forcedFrameWritesEveryPass : Obligations.ForcedFrameWritesEveryPass := by
  intro s h hwf hforce
  obtain ⟨buf, last, -, -, hexec⟩ := exec_frame_of_runs_eq h hwf
  refine ⟨_, passEvents s.par (frameSrc s) s.last.read s.force, hexec, rfl, fun p hp => ?_⟩
  have hunit := unitOk_of_mem_layout h.legal hp
  have hnb : p.nb ≤ 64 := nb_le_of_mem_layout h.legal hp
  have hall : ∀ b, bankChanged (frameSrc s) s.last.read s.force p b = true := fun b => by rw [bankChanged, hforce]; rfl
  rw [passEvents_eq]
  refine ⟨fun hnone => if_neg ?none, fun hsome => ?some⟩
  case none =>
    intro hchanged
    obtain ⟨b, hb, -⟩ := passChanged_banksOf.1 hchanged
    omega
  case some =>
    refine ⟨_, passRecords s.par (frameSrc s) s.last.read s.force p, if_pos (passChanged_banksOf.2 ⟨0, hsome, hall 0⟩),
      decodeWrite_records (passRecords_inDomain hunit), passRecords_unit, fun b hb => ?_⟩
    exact List.mem_filterMap.1 ((mem_passRecords_bank hnb).2 ⟨hb, hall b⟩)

/-! `ALLOFF`. -/

/-- The records of a pass of `ALLOFF`, highest bank first (R172). -/
def offRecords (u : Byte) (nb : Nat) : List Record :=
  (List.range nb).reverse.map (fun b => .off u (BitVec.ofNat 6 b))

theorem offCommands_flatten (u : Byte) (nb : Nat) :
    (offCommands u nb).flatten = (offRecords u nb).flatMap recordBytes := by
  rw [offCommands, offRecords, List.flatMap_map, List.flatMap_def]
  rfl

/-- The bank at a place counted from the highest one. -/
theorem reverse_range (n : Nat) : (List.range n).reverse = (List.range n).map (fun k => n - 1 - k) := by
  apply List.ext_getElem
  · simp
  · intro k h1 h2
    simp

/-- The bytes of the commands of a pass: 3 in bank 0, 4 in each other (R173). -/
theorem offCommands_flatten_length (u : Byte) {nb : Nat} (hpos : 0 < nb) (hnb : nb ≤ 64) :
    (offCommands u nb).flatten.length = 4 * (nb - 1) + 3 := by
  induction nb with
  | zero => cases hpos
  | succ n ih =>
    have hsucc : (offCommands u (n + 1)).flatten = genOff u (BitVec.ofNat 6 n) ++ (offCommands u n).flatten := by
      rw [offCommands, List.range_succ, List.reverse_concat]
      rfl
    rw [hsucc, List.length_append]
    cases n with
    | zero => rfl
    | succ n =>
      have hne : BitVec.ofNat 6 (n + 1) ≠ 0 := by
        intro h
        have := congrArg BitVec.toNat h
        rw [toNat_bankIx (Nat.lt_succ_self (n + 1)) hnb] at this
        cases this
      rw [ih (Nat.succ_pos n) (by omega), genOff, if_neg hne]
      simp only [List.length_cons, List.length_nil]
      omega

/-- Settles O45: the passes of a legal table all fit, and the bytes of each are those of its `OFF` records. -/
theorem allOffSwitchesEveryPassOff : Obligations.AllOffSwitchesEveryPassOff := by
  refine ⟨fun s h => ?operation, fun p hunit hnb => ⟨fun hnone => if_pos hnone, fun hsome => ?write⟩⟩
  case operation =>
    obtain ⟨buf, hend⟩ := allOffOp_of_runs h
    refine ⟨_, exec_alloff s, ?trace, ?frame, fun p hp =>
      ⟨unitOk_of_mem_layout h.legal hp, nb_le_of_mem_layout h.legal hp⟩⟩
    case trace =>
      rw [hend]
      simp [endAllOff]
    case frame =>
      rw [hend]
      rfl
  case write =>
    have hdomain : ∀ r ∈ offRecords p.unit p.nb, RecordInDomain r := by
      intro r hr
      obtain ⟨b, -, rfl⟩ := List.mem_map.1 hr
      exact hunit
    refine ⟨_, if_neg (Nat.ne_of_gt hsome), ?decodes, ?length⟩
    case decodes =>
      rw [offCommands_flatten, decodeWrite_records hdomain, offRecords, reverse_range, List.map_map]
      rfl
    case length =>
      rw [List.length_append, offCommands_flatten_length p.unit hsome hnb]
      rfl

/-- Past the guards, over passes that all fit (R170); the table need not be legal otherwise. -/
theorem allOffOp_of_nb_le {s : State} (hfault : s.faultReg = 0) (hready : s.ports.ready = true)
    (hnb : ∀ p ∈ layout 0 s.cfg, p.nb ≤ Config.maxBanks) :
    (allOffOp s).trace = s.trace ++ (layout 0 s.cfg).flatMap offEvents ++ [.heartbeat, .settle, .done .done] := by
  obtain ⟨buf, hrun⟩ := runEach_allOffPass_of_nb_le hnb s
  have hbody : allOffOp s = allOffBody s := by simp [allOffOp, hfault, hready]
  rw [hbody, allOffBody, hrun]
  simp [endAllOff]

/-- A pass of one bank switches it off with `OFFB0` (R147, R173). -/
theorem offEvents_of_nb_eq_one {p : PassSpec} (h : p.nb = 1) :
    offEvents p = [.txWrite [0x00, p.unit, 0x41, 0x00, 0x00]] := by
  rw [offEvents, h]
  rfl

/-- Settles O48: three passes of one bank each. -/
theorem allOffLegacyThreeBanks : Obligations.AllOffLegacyThreeBanks := by
  intro s d hfault hready hcfg hports htype hmode hlow hhigh
  have hcount : d.chanCount ≠ 0 := by omega
  have hthree : (plan d).npass = 3 := by
    rw [plan_legacy hports htype hmode hcount]
    simp only [ceil16]
    omega
  have hlayout : layout 0 s.cfg = [passSpec d 0 0, passSpec d 0 1, passSpec d 0 2] := by
    rw [hcfg, layout, layout, passesOf, hthree]
    rfl
  have hone : ∀ k, k < 3 → (passSpec d 0 k).nb = 1 := by
    intro k hk
    obtain ⟨-, -, -, -, hnb, -⟩ := legacyPassesAreSingleBanks d 0 k hports htype hmode hcount (by omega)
    exact hnb
  have hunit : (passSpec d 0 0).unit = d.unitId := BitVec.add_zero _
  refine ⟨allOffOp s, exec_alloff s, ?_⟩
  rw [allOffOp_of_nb_le hfault hready, hlayout]
  · simp only [List.flatMap_cons, List.flatMap_nil, offEvents_of_nb_eq_one (hone _ (by omega : 0 < 3)),
      offEvents_of_nb_eq_one (hone _ (by omega : 1 < 3)), offEvents_of_nb_eq_one (hone _ (by omega : 2 < 3)), hunit,
      List.append_assoc]
    rfl
  · rw [hlayout]
    simp [hone, Config.maxBanks]

/-- Where a `FRAME` would run, it would run after an `ALLOFF` too: that leaves alone what the guards, the address check
and the layout read (R176). -/
theorem FrameRuns.after_allOff {s : State} (h : FrameRuns s) : FrameRuns (allOffOp s) := by
  obtain ⟨hkeeps, -, -⟩ := allOffOp_keepsHistory s
  have hfault : (allOffOp s).faultReg = 0 := (allOffOp_faultReg (.inl h.legal)).trans h.noFault
  constructor
  case noFault => exact hfault
  all_goals simp only [hkeeps.par, hkeeps.cfg, hkeeps.total, hkeeps.ports]
  exacts [h.ready, h.txEmpty, h.inSrc, h.inLast, h.legal, h.covers]

/-- Settles O47: the first frame leaves its values in the history and `FORCE` clear, and the `ALLOFF` touches
neither. -/
theorem sameFrameAfterAllOffWritesNothing : Obligations.SameFrameAfterAllOffWritesNothing := by
  intro s t u h hwf hframe halloff hsame
  obtain ⟨buf, last, hlast, hread, hexec⟩ := exec_frame_of_runs_eq h hwf
  rw [hexec] at hframe
  obtain rfl := Host.Outcome.next.inj hframe
  rw [exec_alloff] at halloff
  obtain rfl := Host.Outcome.next.inj halloff
  have hruns : FrameRuns (afterFrame s buf last) :=
    ⟨h.noFault, h.ready, h.txEmpty, h.inSrc, h.inLast, h.legal, h.covers⟩
  obtain ⟨hkeeps, hhistory, hforce⟩ := allOffOp_keepsHistory (afterFrame s buf last)
  refine unchangedFrameWritesNothing _ hruns.after_allOff (by rw [hhistory]; exact hlast) hforce fun p hp a ha => ?_
  rw [framePasses, hkeeps.ports, hkeeps.cfg] at hp
  rw [hsame p hp a ha, hhistory]
  exact ((hread a).trans (if_pos ⟨p, hp, ha⟩)).symm

end Sys2Proof.Machine
end
